-- ==== Sys2Proof/Config.lean ====
section
/-! DEFINITION. The identity of the block (00_scope.md rule R1) and its parameters (rule R5): five fixed by the
document, one decided (D8), and the three capacities the spec leaves open (D9). The one free value is
the content of `prev` before its first write. -/

namespace Sys2Proof.Config

/-- `CODE_BITS` (R5): width of a code. -/
abbrev codeBits : Nat := 12

/-- `BYTE_BITS` (R5): width of a stream element. -/
abbrev byteBits : Nat := 8

/-- `SYM_BITS` (R5, decision D8): width of an output symbol. -/
abbrev symBits : Nat := 8

/-- `GROUP_BYTES` (R5): bytes per full group, the size of every `SrcRead`. -/
abbrev groupBytes : Nat := 3

/-- `BASE` (R5): size of the base alphabet and reset value of `dict_size`. -/
abbrev base : Nat := 256

/-- `CAP` (R5): the value of `dict_size` that triggers the reset to `BASE`. -/
abbrev cap : Nat := 4096

/-- Which way a block converts between text and the compressed form. -/
inductive Direction where
  | decodeOnly
  | encodeOnly
  | both
deriving DecidableEq, Repr

/-- FREE VALUE: the content of `prev` before its first write, which the spec leaves unspecified (70_reset_and_hazards.md
rule R232, decision D10), as a first symbol and the others: one for each initialisation of the block. It has no body, so it
is no default (rule R29) and nothing can be proved of it; no run reads it (log entry 21). -/
opaque unwrittenPrev : Nat → BitVec 8 × List (BitVec 8)

/-- What a model records of the block it models (R1). -/
structure Identity where
  name : String
  /-- bits of a code -/
  codeWidth : Nat
  /-- entries of the dictionary -/
  capacity : Nat
  /-- entries of the base alphabet -/
  baseEntries : Nat
  direction : Direction
deriving DecidableEq, Repr

/-- The identity of this block (R1): it decodes only (R4 (b)). -/
def identity : Identity where
  name := "TomCS3/LzwDecompressor core"
  codeWidth := codeBits
  capacity := cap
  baseEntries := base
  direction := .decodeOnly

/-- The capacities of a bounded implementation (R5, R244, decision D9); `none` is unbounded. -/
structure Bounds where
  entryLenMax : Option Nat
  cqCap : Option Nat
  outCap : Option Nat
deriving DecidableEq, Repr

/-- The default of decision D9: the architecture has unbounded stores. -/
abbrev unbounded : Bounds := { entryLenMax := none, cqCap := none, outCap := none }

end Sys2Proof.Config
end

