-- ==== Sys2Proof/Word.lean ====
section
/-! DEFINITION. The value types of 00_scope.md rule R7. -/

namespace Sys2Proof

/-- `Byte` (R7): one element of the byte stream. -/
abbrev Byte := BitVec 8

/-- `Code` (R7): exactly 12 bits, so a value above 4095 cannot be formed (D19, U12). -/
abbrev Code := BitVec 12

/-- `Sym` (R7, decision D8): one output symbol. -/
abbrev Sym := BitVec 8

/-- `Str` (R7): a finite sequence of symbols. -/
abbrev Str := List Sym

/-- An entry (R7): a NON-EMPTY string, held by value (R239): its first symbol and the others. -/
structure Entry where
  first : Sym
  rest : Str
deriving DecidableEq, Repr

/-- The name of a text sink the host hands over with `EXTRACT` (R174). -/
abbrev SinkId := Nat

end Sys2Proof
end

