-- ==== Sys2Proof/Syntax.lean ====
section
/-! DEFINITION. The operations of the block: one constructor per row of spec/opcode_table.json, with the row's fields
as operands (30_encoding.md rule R96). -/

namespace Sys2Proof

/-- A command of the host with its operands (42_host_operations.md rule R170; an enumeration, rule R97). -/
inductive HostCmd where
  | unpack (src : List Byte)
  | decode (codes : List Code)
  | decompress (src : List Byte)
  | extract (src : List Byte) (sink : SinkId)
deriving DecidableEq, Repr

/-- What the host does at its side of the interface. -/
inductive HostEvent where
  /-- start an operation (R170); it waits until no run is in progress (R178) -/
  | start (c : HostCmd)
  /-- let one step of the block go by -/
  | pass
  /-- assert the hardware reset, if the implementation has one (R231, decision D10, U11) -/
  | reset
deriving DecidableEq, Repr

/-- The operations (rule R96). -/
inductive Instr where
  /-- `UNPK3` (R111), format G3: the two codes of a full group -/
  | unpk3 (code1 code2 : Code)
  /-- `UNPK2` (R112), format G2: padding, and the one code of the tail -/
  | unpk2 (pad : BitVec 4) (code : Code)
  /-- `UNPK1` (R113), format G1: the dangling byte -/
  | unpk1 (byte : Byte)
  /-- `UNPK0` (R114), format G0: end of stream -/
  | unpk0
  /-- `DEMPTY` (R131): the decoder starts on an empty sequence -/
  | dempty
  /-- `DINIT` (R132): the decoder starts on a sequence that is not empty -/
  | dinit
  /-- `DFIRST` (R133), format C12 with bits 11:8 zero: the symbol, bits 7:0 -/
  | dfirst (sym : Sym)
  /-- `DFIRSTBAD` (R134), format C12 -/
  | dfirstbad (code : Code)
  /-- `DLIT` (R136), format C12 with bits 11:8 zero: the symbol, bits 7:0 -/
  | dlit (sym : Sym)
  /-- `DREF` (R137), format C12: the address in the dictionary RAM -/
  | dref (code : Code)
  /-- `DNEW` (R138), format C12 -/
  | dnew (code : Code)
  /-- `DBAD` (R139), format C12 -/
  | dbad (code : Code)
  /-- `DEND` (R145): the sequence is exhausted -/
  | dend
  /-- `UNPACK` (R171) -/
  | unpack (src : List Byte)
  /-- `DECODE` (R172) -/
  | decode (codes : List Code)
  /-- `DECOMPRESS` (R173) -/
  | decompress (src : List Byte)
  /-- `EXTRACT` (R174) -/
  | extract (src : List Byte) (sink : SinkId)
deriving DecidableEq, Repr

end Sys2Proof
end

