-- ==== Sys2Proof/WellFormed.lean ====
section
/-! DEFINITION. The operand values an operation can be selected with, as far as they do not depend on the state
(30_encoding.md rule R88; `dict_size` is between 256 and 4095, 10_state.md rule R27). -/

namespace Sys2Proof

/-- An instruction's operands are ones the class of the instruction admits for some `dict_size` (R88, R149). -/
def Instr.wf : Instr → Bool
  | .unpk3 _ _ => true
  | .unpk2 _ _ => true
  | .unpk1 _ => true
  | .unpk0 => true
  | .dempty => true
  | .dinit => true
  | .dfirst _ => true
  | .dfirstbad code => Config.base ≤ code.toNat
  | .dlit _ => true
  | .dref code => Config.base ≤ code.toNat && code.toNat + 1 < Config.cap
  | .dnew code => Config.base ≤ code.toNat
  | .dbad code => Config.base < code.toNat
  | .dend => true
  | .unpack _ => true
  | .decode _ => true
  | .decompress _ => true
  | .extract _ _ => true

end Sys2Proof
end

