-- ==== Sys2Proof/Decode.lean ====
section
/-! DEFINITION. From words to operations and back (30_encoding.md). What the next operation is depends on the words
AND on where the block stands (R81, R88, R90), so the decoder takes both: the words, and the context that selects. -/

namespace Sys2Proof

/-- What the block has in hand when it selects an operation. -/
inductive Words where
  /-- the bytes one `SrcRead(3)` returned (R81) -/
  | chunk (bytes : List Byte)
  /-- one code of the sequence, format C12 (R88) -/
  | code (c : Code)
  /-- no bits: the operations of rule R90 -/
  | nothing
  /-- a command of the host (R97) -/
  | command (c : HostCmd)
deriving DecidableEq, Repr

/-- Where the block stands when it selects an operation. -/
inductive Context where
  /-- in the unpack loop (R110) -/
  | unpacking
  /-- the decoder starts, with `count` codes in the sequence (R130 (i)) -/
  | starting (count : Nat)
  /-- a code at position `pos` is next, the counter at `dictSize` (R88) -/
  | decoding (pos dictSize : Nat)
  /-- the sequence is exhausted after at least one code (R90) -/
  | ended
  /-- no run is in progress (R180) -/
  | waiting
deriving DecidableEq, Repr

/-- Why the decoder gives no operation. -/
inductive Reject where
  /-- a chunk of more than 3 bytes: `SrcRead(3)` returns none (R52) -/
  | chunkTooLong (length : Nat)
  /-- words that do not belong to the context -/
  | wordsOutOfPlace
deriving DecidableEq, Repr

/-! ### The three assembly formulas (R86) -/

/-- G3, first code: `(b0 << 4) | (b1 >> 4)`. -/
def assembleFirst (b0 b1 : Byte) : Code :=
  (b0.setWidth 12 <<< 4) ||| (b1.setWidth 12 >>> 4)

/-- G3, second code: `((b1 & 0x0F) << 8) | b2`. -/
def assembleSecond (b1 b2 : Byte) : Code :=
  ((b1 &&& 0x0F#8).setWidth 12 <<< 8) ||| b2.setWidth 12

/-- G2: `((b0 & 0x0F) << 8) | b1`. -/
def assembleTail (b0 b1 : Byte) : Code :=
  ((b0 &&& 0x0F#8).setWidth 12 <<< 8) ||| b1.setWidth 12

/-- G2, the padding: bits 7:4 of the first byte (R83). -/
def tailPad (b0 : Byte) : BitVec 4 :=
  b0.extractLsb' 4 4

/-! ### The decoder -/

/-- The length of the chunk alone selects the operation (R81). -/
def decodeChunk : List Byte → Except Reject Instr
  | [] => .ok .unpk0
  | [b0] => .ok (.unpk1 b0)
  | [b0, b1] => .ok (.unpk2 (tailPad b0) (assembleTail b0 b1))
  | [b0, b1, b2] => .ok (.unpk3 (assembleFirst b0 b1) (assembleSecond b1 b2))
  | bytes => .error (.chunkTooLong bytes.length)

/-- The class of a code (R88), from its position and from the `dict_size` at the start of the step (R135, R236). -/
def classify (pos dictSize : Nat) (c : Code) : Instr :=
  if pos = 0 then
    if c.toNat < Config.base then .dfirst (c.setWidth 8) else .dfirstbad c
  else if c.toNat < Config.base then .dlit (c.setWidth 8)
  else if c.toNat < dictSize then .dref c
  else if c.toNat = dictSize then .dnew c
  else .dbad c

/-- A command as an operation. -/
def HostCmd.toInstr : HostCmd → Instr
  | .unpack src => .unpack src
  | .decode codes => .decode codes
  | .decompress src => .decompress src
  | .extract src sink => .extract src sink

/-- The decoder: total on any words in any context, rejecting by name. -/
def decode (ctx : Context) (w : Words) : Except Reject Instr :=
  match ctx, w with
  | .unpacking, .chunk bytes => decodeChunk bytes
  | .starting count, .nothing => .ok (if count = 0 then .dempty else .dinit)
  | .decoding pos dictSize, .code c => .ok (classify pos dictSize c)
  | .ended, .nothing => .ok .dend
  | .waiting, .command c => .ok c.toInstr
  | _, _ => .error .wordsOutOfPlace

/-! ### The encoder, from the same tables (R82 to R85, R88, R95) -/

/-- The three bytes that hold two codes (R95, R82). -/
def packPair (a b : Code) : List Byte :=
  [(a >>> 4).setWidth 8, ((a &&& 0x00F#12).setWidth 8 <<< 4) ||| (b >>> 8).setWidth 8, b.setWidth 8]

/-- The two bytes of a tail with a given padding (R83). -/
def packTail (pad : BitVec 4) (a : Code) : List Byte :=
  [(pad.setWidth 8 <<< 4) ||| (a >>> 8).setWidth 8, a.setWidth 8]

/-- The words of an operation. -/
def encode : Instr → Words
  | .unpk3 code1 code2 => .chunk (packPair code1 code2)
  | .unpk2 pad code => .chunk (packTail pad code)
  | .unpk1 byte => .chunk [byte]
  | .unpk0 => .chunk []
  | .dempty => .nothing
  | .dinit => .nothing
  | .dfirst sym => .code (sym.setWidth 12)
  | .dfirstbad code => .code code
  | .dlit sym => .code (sym.setWidth 12)
  | .dref code => .code code
  | .dnew code => .code code
  | .dbad code => .code code
  | .dend => .nothing
  | .unpack src => .command (.unpack src)
  | .decode codes => .command (.decode codes)
  | .decompress src => .command (.decompress src)
  | .extract src sink => .command (.extract src sink)

/-- The context is the decoder's start with a count of codes that meets `p` (R90). -/
def Context.startsWith (p : Nat → Bool) : Context → Bool
  | .starting count => p count
  | _ => false

/-- The context is a code's, with a position and a `dict_size` that meet `p` (R88). -/
def Context.codeAt (p : Nat → Nat → Bool) : Context → Bool
  | .decoding pos dictSize => p pos dictSize
  | _ => false

/-- `selected_by` of the operation table (R96): the contexts in which an operation with these operands is selected. -/
def Context.selects (ctx : Context) (i : Instr) : Bool :=
  match i with
  | .unpk3 _ _ => ctx == .unpacking
  | .unpk2 _ _ => ctx == .unpacking
  | .unpk1 _ => ctx == .unpacking
  | .unpk0 => ctx == .unpacking
  | .dempty => ctx.startsWith fun count => count == 0
  | .dinit => ctx.startsWith fun count => 1 ≤ count
  | .dfirst _ => ctx.codeAt fun pos _ => pos == 0
  | .dfirstbad code => ctx.codeAt fun pos _ => pos == 0 && 256 ≤ code.toNat
  | .dlit _ => ctx.codeAt fun pos _ => 0 < pos
  | .dref code => ctx.codeAt fun pos dictSize => 0 < pos && 256 ≤ code.toNat && code.toNat < dictSize
  | .dnew code => ctx.codeAt fun pos dictSize => 0 < pos && 256 ≤ code.toNat && code.toNat == dictSize
  | .dbad code => ctx.codeAt fun pos dictSize => 0 < pos && 256 ≤ code.toNat && dictSize < code.toNat
  | .dend => ctx == .ended
  | .unpack _ => ctx == .waiting
  | .decode _ => ctx == .waiting
  | .decompress _ => ctx == .waiting
  | .extract _ _ => ctx == .waiting

/-- `pack` (R95): the byte stream that unpacks to a code sequence, with zero padding. -/
def pack : List Code → List Byte
  | [] => []
  | [a] => packTail 0#4 a
  | a :: b :: rest => packPair a b ++ pack rest

/-! ### The words of the opcode table, for the host's checks -/

/-- The bytes of a row's word: the table numbers a chunk as ONE word whose most significant byte is the first byte of
the stream (the note of row `UNPK3`; R53, R54). -/
def tableBytes (nbits w : Nat) : Option (List Byte) :=
  match nbits with
  | 0 => some []
  | 8 => some [BitVec.ofNat 8 w]
  | 16 => some [BitVec.ofNat 8 (w / 256), BitVec.ofNat 8 w]
  | 24 => some [BitVec.ofNat 8 (w / 65536), BitVec.ofNat 8 (w / 256), BitVec.ofNat 8 w]
  | _ => none

/-- The operation the decoder reads from a row's word. A word of whole bytes is a chunk of the byte stream; a word of
exactly 12 bits is a code, and as the first one after reset it stands at position 0 (log entry 9). -/
def decodeTableWord (nbits w : Nat) : Option Instr :=
  if nbits = 12 then
    (decode (.decoding 0 Config.base) (.code (BitVec.ofNat 12 w))).toOption
  else
    match tableBytes nbits w with
    | some bytes => (decode .unpacking (.chunk bytes)).toOption
    | none => none

end Sys2Proof
end

