-- ==== Sys2Proof/Machine/State.lean ====
section
/-! DEFINITION. The state of the block (10_state.md rule R20) and its value after a hardware reset (rules R41, R231),
with the reasons a step of the MODEL can stop. The block's own two errors are no faults here: they are next states
(60_exceptions.md rule R197). -/

namespace Sys2Proof.Machine

/-- `PHASE` (R32). -/
inductive Phase where
  | idle | unpack | decode | done | failed
deriving DecidableEq, Repr

/-- Which host operation runs, or ran last (R40, R170). -/
inductive HostOp where
  | unpack | decode | decompress | extract
deriving DecidableEq, Repr

/-- `ERR` (R33): the value 3 cannot be formed (U8). -/
inductive Err where
  | none
  | invalidData
  | unknownCode
deriving DecidableEq, Repr

/-- `ERRINFO.cause` (R34). -/
inductive Cause where
  | none | danglingByte | emptySequence | firstCode | codeBeyond
deriving DecidableEq, Repr

/-- `ERRINFO` (R34). -/
structure ErrInfo where
  cause : Cause
  index : Nat
  value : Nat
deriving DecidableEq, Repr

/-- One location of the dictionary RAM that has been written: its key and its entry. -/
abbrev DictCell := Nat × Entry

/-- Why the MODEL stops. No rule of the spec leads to any of these (R232, U4): each is safe, since the model stops
where it could only go on with a value the spec does not give. -/
inductive Fault where
  /-- `DictRead` of a key that is not valid (R60, R62), raised by `DREF`. Safe. -/
  | invalidKey (key : Nat)
  /-- `DictRead` of a location of `DICT_RAM` nothing has written (R26), raised by `DREF`. Safe. -/
  | entryUnwritten (key : Nat)
  /-- `DictWrite` of a key outside `DICT_RAM` (R59, R61), raised by the tail step T1. Safe. -/
  | dictWriteOutside (key : Nat)
  /-- no operation is selected in phase DECODE (R130): the cursor beyond the sequence, or a decoder past its start
  with no code; raised by the fetch. Safe. -/
  | noOperationSelected
  /-- the decoder accepts no such words (R81, R88); raised by the fetch. Safe. -/
  | undecodable (why : Reject)
deriving DecidableEq, Repr

/-- Why the model gives no meaning. -/
inductive Refusal where
  /-- an operation that has no meaning yet; no arm of `exec` is left with it. Safe. -/
  | notModelled (mnemonic : String)
  /-- a host operation started while one runs, raised by the four host operations: the spec gives no rule and no move
  (R178, D13, U9). Safe for `exec`; the model's host never does it, which is the unsafe premise of log entry 8. -/
  | startDuringRun
  /-- a bound of a bounded implementation is exceeded, raised by `stepBounded` alone (R244, D9, U7). Safe. -/
  | capacityExceeded
deriving DecidableEq, Repr

/-- The state: the eighteen items of R20 (`DICT_ROM` needs no storage, R25), then the model's own fields. -/
structure State where
  /-- `IN` (R21): the byte source of the run -/
  input : List Byte
  /-- `rp` (R21): bytes consumed -/
  rp : Nat
  /-- `b0` (R22): first byte of the chunk; `none` is unwritten -/
  b0 : Option Byte
  /-- `b1` (R22) -/
  b1 : Option Byte
  /-- `b2` (R22) -/
  b2 : Option Byte
  /-- `chn` (R22): length of the chunk -/
  chn : Nat
  /-- `CQ` (R23): the code sequence -/
  cq : List Code
  /-- `ci` (R23): codes consumed -/
  ci : Nat
  /-- `code` (R24): the code of the step in progress; `none` is unwritten -/
  code : Option Code
  /-- `DICT_RAM` (R26): the locations written, keys strictly rising; any other location is unwritten -/
  dictRam : List DictCell
  /-- `dict_size` (R27): the insertion counter -/
  dictSize : Nat
  /-- `prev` (R29): the previous entry; `none` is unwritten -/
  prev : Option Entry
  /-- `cur` (R30): the current entry; `none` is unwritten -/
  cur : Option Entry
  /-- `OUT` (R31): the decoded text -/
  out : Str
  /-- `PHASE` (R32) -/
  phase : Phase
  /-- `ERR` (R33) -/
  err : Err
  /-- `ERRINFO` (R34) -/
  errinfo : ErrInfo
  /-- `OUTLEN` (R35) -/
  outlen : Nat
  /-- `nreset` (R36): the ghost counter of wraps -/
  nreset : Nat
  /-- the model's own: the host operation of the run (R40), read by `UNPK0` (R114) and by the host's view (R35) -/
  op : Option HostOp
  /-- the model's own: the decoder has left its start, so that `DINIT` is one step (R130 (i), R246) -/
  decStarted : Bool
  /-- the model's own: the claim on the byte source (R177) -/
  srcHeld : Bool
  /-- the model's own: the sink the running `EXTRACT` was handed (R174, R177) -/
  sinkHeld : Option SinkId
  /-- the model's own: the writes the host's sinks have received, oldest first (R174) -/
  sinkLog : List (SinkId × Str)
  /-- the model's own: what the host does next, in order (R170, R178, R231) -/
  host : List HostEvent
  /-- the model's own: how often the block has been initialised; the argument of the free value of `prev` (log entry 21) -/
  epoch : Nat
deriving DecidableEq, Repr

/-- The block right after a hardware reset (R41, R231): IDLE, and nothing placed by the host. -/
def State.reset : State where
  input := []
  rp := 0
  b0 := none
  b1 := none
  b2 := none
  chn := 0
  cq := []
  ci := 0
  code := none
  dictRam := []
  dictSize := 256
  prev := none
  cur := none
  out := []
  phase := .idle
  err := .none
  errinfo := { cause := .none, index := 0, value := 0 }
  outlen := 0
  nreset := 0
  op := none
  decStarted := false
  srcHeld := false
  sinkHeld := none
  sinkLog := []
  host := []
  epoch := 0

end Sys2Proof.Machine
end

