-- ==== Sys2Proof/Machine/Operands.lean ====
section
/-! DEFINITION. Strings as entries (00_scope.md rule R7), the read of `prev`, and the encodings of the status
registers. -/

namespace Sys2Proof

/-- The string an entry is (R7). -/
def Entry.toStr (e : Entry) : Str :=
  e.first :: e.rest

/-- `|e|` (R7). -/
def Entry.length (e : Entry) : Nat :=
  e.rest.length + 1

/-- The one-symbol entry `⟨s⟩` (R7). -/
def Entry.single (s : Sym) : Entry :=
  { first := s, rest := [] }

/-- `e ++ ⟨s⟩` (R7). -/
def Entry.snoc (e : Entry) (s : Sym) : Entry :=
  { first := e.first, rest := e.rest ++ [s] }

namespace Machine

/-- The entry a read of `prev` gives (R29): the one last written; before its first write a free value (R232, log entry
21), the same for every read until the block is initialised again or writes `prev`. -/
def readPrev (s : State) : Entry :=
  match s.prev with
  | some e => e
  | none => { first := (Config.unwrittenPrev s.epoch).1, rest := (Config.unwrittenPrev s.epoch).2 }

/-- The numbers of `ERR` (R33, R193, decision D4). -/
def Err.number : Err → BitVec 2
  | .none => 0
  | .invalidData => 1
  | .unknownCode => 2

end Machine

end Sys2Proof
end

