-- ==== Sys2Proof/Machine/Flags.lean ====
section
/-! DEFINITION. The block has no flags, condition codes or predicates (10_state.md rule R38). What stands here are the
conditions its decisions are made on; none of them is stored. -/

namespace Sys2Proof.Machine

/-- `valid(k)` (R62): the entry of key `k` may be read. -/
def validKey (k : Nat) (s : State) : Bool :=
  k < s.dictSize

/-- The counter, once incremented, has reached the capacity (R141, R146). -/
def reachesCap (n : Nat) : Bool :=
  n == Config.cap

/-- A run is in progress (R180). -/
def State.running (s : State) : Bool :=
  s.phase == .unpack || s.phase == .decode

/-- The host neither asserts a reset nor lets a single step go by: its next event, if any, is a start. -/
def State.quiet (s : State) : Bool :=
  match s.host with
  | [] => true
  | .start _ :: _ => true
  | .pass :: _ => false
  | .reset :: _ => false

end Sys2Proof.Machine
end

