-- ==== Sys2Proof/Machine/Ops.lean ====
section
/-! DEFINITION. The access primitives of 20_memory.md, the tail steps of 41_decoder.md, raising an error, the end of a
run, and the initialisation of one. -/

namespace Sys2Proof.Machine

/-! ### The dictionary RAM as a list of written locations, keys strictly rising -/

/-- The canonical form: keys strictly rising, each a key of `DICT_RAM` (R59). -/
def Memory.wf (ram : List DictCell) : Bool :=
  match ram with
  | [] => true
  | [(k, _)] => Config.base ≤ k && k < Config.cap
  | (k, _) :: (k', e') :: rest => Config.base ≤ k && k < k' && Memory.wf ((k', e') :: rest)

/-- The entry at a location, `none` where nothing has written it (R26). -/
def ramLookup (key : Nat) : List DictCell → Option Entry
  | [] => none
  | (k, e) :: rest => if k = key then some e else ramLookup key rest

/-- Writing one location, which replaces what it held (R61). -/
def ramInsert (key : Nat) (e : Entry) : List DictCell → List DictCell
  | [] => [(key, e)]
  | (k, e') :: rest =>
    if k < key then (k, e') :: ramInsert key e rest
    else if k = key then (key, e) :: rest
    else (key, e) :: (k, e') :: rest

/-- `DICT_ROM[k]` (R25): hardwired, the one-symbol string `⟨k⟩`. -/
def romEntry (k : Nat) : Entry :=
  Entry.single (BitVec.ofNat 8 k)

/-- `DictRead(k)` (R60): the ROM below 256, the RAM for a valid key; a fault of the model for an invalid one. -/
def dictRead (k : Nat) (s : State) : Except Fault Entry :=
  if k < Config.base then .ok (romEntry k)
  else if validKey k s then
    match ramLookup k s.dictRam with
    | some e => .ok e
    | none => .error (.entryUnwritten k)
  else .error (.invalidKey k)

/-- `DictWrite(k, e)` (R61). -/
def dictWrite (k : Nat) (e : Entry) (s : State) : Except Fault State :=
  if Config.base ≤ k ∧ k < Config.cap then .ok { s with dictRam := ramInsert k e s.dictRam }
  else .error (.dictWriteOutside k)

/-! ### The byte source, the code sequence, the output -/

/-- `SrcRead(n)` (R52): the bytes, and the state with them consumed. -/
def srcRead (n : Nat) (s : State) : List Byte × State :=
  let bytes := (s.input.drop s.rp).take n
  (bytes, { s with rp := s.rp + bytes.length })

/-- The fetch of the unpack loop (R110): `SrcRead(3)` into the latches; those past the chunk hold no value (R22). -/
def fetchChunk (s : State) : State :=
  let r := srcRead Config.groupBytes s
  { r.2 with chn := r.1.length, b0 := r.1[0]?, b1 := r.1[1]?, b2 := r.1[2]? }

/-- `CqAppend(c)` (R63). -/
def cqAppend (c : Code) (s : State) : State :=
  { s with cq := s.cq ++ [c] }

/-- `code <- CqNext()` (R63, R24): the code, and the state with it in its latch and the cursor moved; `none` where no
code is left. -/
def cqNext (s : State) : Option (Code × State) :=
  match s.cq[s.ci]? with
  | some c => some (c, { s with ci := s.ci + 1, code := some c })
  | none => none

/-- `OutAppend(e)` (R64). -/
def outAppend (e : Entry) (s : State) : State :=
  { s with out := s.out ++ e.toStr }

/-! ### The tail steps (R140 to R143), in the order of R144

`cur` is the value this step's operation has just written to the register of that name (R30, R140), so no tail step can
meet it unwritten. -/

/-- T1, insert (R140): `DictWrite(dict_size, prev ++ ⟨first(cur)⟩)`, with the old `prev` (R237). -/
def tailInsert (cur : Entry) (s : State) : Except Fault State :=
  dictWrite s.dictSize ((readPrev s).snoc cur.first) s

/-- T2, increment and wrap (R141). -/
def tailCount (s : State) : State :=
  if reachesCap (s.dictSize + 1) then { s with dictSize := Config.base, nreset := s.nreset + 1 }
  else { s with dictSize := s.dictSize + 1 }

/-- T3, append (R142). -/
def tailAppend (cur : Entry) (s : State) : State :=
  outAppend cur s

/-- T4, update the previous entry (R143). -/
def tailKeep (cur : Entry) (s : State) : State :=
  { s with prev := some cur }

/-- `cur <- e; T1; T2; T3; T4` (R144): the common end of `DLIT`, `DREF` and `DNEW`. -/
def completeStep (e : Entry) (s : State) : Except Fault State := do
  let s1 ← tailInsert e { s with cur := some e }
  .ok (tailKeep e (tailAppend e (tailCount s1)))

/-! ### The end of a run -/

/-- At the outcome the block holds no claim on the source or the sink (R177). -/
def release (s : State) : State :=
  { s with srcHeld := false, sinkHeld := none }

/-- `raise E(info)` (R197): the one way an error is taken. There is no handler and no return (R197, R200). -/
def raiseError (e : Err) (info : ErrInfo) (s : State) : State :=
  release { s with err := e, errinfo := info, outlen := 0, phase := .failed }

/-- The run ends `ok` with a result of `n` elements (R35, R180). -/
def finishRun (n : Nat) (s : State) : State :=
  release { s with outlen := n, phase := .done }

/-- The one write of `EXTRACT` to the sink it was handed (R174); the other operations hold no sink. -/
def sinkWrite (s : State) : State :=
  match s.sinkHeld with
  | some k => { s with sinkLog := s.sinkLog ++ [(k, s.out)] }
  | none => s

/-! ### The start of a run -/

/-- The per-call initialisation (R230, R41): everything but `DICT_RAM`, which needs nothing, and the host's own side.
`prev` is unwritten again, so its unspecified content is a new one (log entry 21). -/
def initRun (s : State) : State :=
  { s with
    input := [], rp := 0, b0 := none, b1 := none, b2 := none, chn := 0
    cq := [], ci := 0, code := none
    dictSize := Config.base, prev := none, cur := none, out := []
    err := .none, errinfo := { cause := .none, index := 0, value := 0 }
    outlen := 0, nreset := 0
    op := none, decStarted := false, srcHeld := false, sinkHeld := none
    epoch := s.epoch + 1 }

/-- A hardware reset (R231, decision D10): the effect of R230, and IDLE; a run in progress is abandoned. -/
def hardwareReset (s : State) : State :=
  { initRun s with phase := .idle }

/-- The decoder takes over, at its start (R130). -/
def enterDecode (s : State) : State :=
  { s with phase := .decode, decStarted := false }

/-- A run of operation `op` begins on a byte source (R171, R173, R174). -/
def startUnpacking (op : HostOp) (src : List Byte) (s : State) : State :=
  { initRun s with op := some op, input := src, srcHeld := true, phase := .unpack }

/-- A run of `DECODE` begins on a code sequence (R172). -/
def startDecoding (codes : List Code) (s : State) : State :=
  enterDecode { initRun s with op := some .decode, cq := codes }

/-- What an operation answers, from an operation of this file that may meet a fault of the model. -/
def answer (r : Except Fault State) : Host.Outcome State Fault Refusal :=
  match r with
  | .ok s => .next s
  | .error f => .fault f

end Sys2Proof.Machine
end

