-- ==== Sys2Proof/Machine/Decoder.lean ====
section
/-! DEFINITION. The operations of the dictionary decoder (41_decoder.md rules R131 to R145). The code has been
consumed by the fetch (R130). -/

namespace Sys2Proof.Machine

/-- `DEMPTY` (R131, decision D5). -/
def execDempty (s : State) : Host.Outcome State Fault Refusal :=
  .next (raiseError .invalidData { cause := .emptySequence, index := 0, value := 0 } s)

/-- `DINIT` (R132): the counter alone; the ROM holds by construction and no RAM location is valid. -/
def execDinit (s : State) : Host.Outcome State Fault Refusal :=
  .next { s with dictSize := Config.base, decStarted := true }

/-- `DFIRST` (R133): no entry is inserted. -/
def execDfirst (sym : Sym) (s : State) : Host.Outcome State Fault Refusal :=
  answer do
    let e ← dictRead sym.toNat s
    .ok (outAppend e { s with prev := some e })

/-- `DFIRSTBAD` (R134, decision D6). -/
def execDfirstbad (code : Code) (s : State) : Host.Outcome State Fault Refusal :=
  .next (raiseError .unknownCode { cause := .firstCode, index := 0, value := code.toNat } s)

/-- `DLIT` (R136). -/
def execDlit (sym : Sym) (s : State) : Host.Outcome State Fault Refusal :=
  answer do
    let e ← dictRead sym.toNat s
    completeStep e s

/-- `DREF` (R137). -/
def execDref (code : Code) (s : State) : Host.Outcome State Fault Refusal :=
  answer do
    let e ← dictRead code.toNat s
    completeStep e s

/-- `DNEW` (R138): no dictionary location is read. -/
def execDnew (_code : Code) (s : State) : Host.Outcome State Fault Refusal :=
  answer (completeStep ((readPrev s).snoc (readPrev s).first) s)

/-- `DBAD` (R139): raised before any tail step. -/
def execDbad (code : Code) (s : State) : Host.Outcome State Fault Refusal :=
  .next (raiseError .unknownCode { cause := .codeBeyond, index := s.ci - 1, value := code.toNat } s)

/-- `DEND` (R145); an `EXTRACT` writes the text to its sink here (R174). -/
def execDend (s : State) : Host.Outcome State Fault Refusal :=
  .next (finishRun s.out.length (sinkWrite s))

end Sys2Proof.Machine
end

