-- ==== Sys2Proof/Machine/HostOps.lean ====
section
/-! DEFINITION. The four operations of the host (42_host_operations.md rules R171 to R174). Starting one while a run
is in progress has no rule (R178, D13, U9) and is refused by name. -/

namespace Sys2Proof.Machine

/-- Begin a run, unless one is in progress. -/
def beginRun (start : State → State) (s : State) : Host.Outcome State Fault Refusal :=
  if s.running then .refused .startDuringRun else .next (start s)

/-- `UNPACK` (R171). -/
def execUnpack (src : List Byte) (s : State) : Host.Outcome State Fault Refusal :=
  beginRun (startUnpacking .unpack src) s

/-- `DECODE` (R172). -/
def execDecode (codes : List Code) (s : State) : Host.Outcome State Fault Refusal :=
  beginRun (startDecoding codes) s

/-- `DECOMPRESS` (R173). -/
def execDecompress (src : List Byte) (s : State) : Host.Outcome State Fault Refusal :=
  beginRun (startUnpacking .decompress src) s

/-- `EXTRACT` (R174): it holds its sink until the outcome. -/
def execExtract (src : List Byte) (sink : SinkId) (s : State) : Host.Outcome State Fault Refusal :=
  beginRun (fun s => { startUnpacking .extract src s with sinkHeld := some sink }) s

end Sys2Proof.Machine
end

