-- ==== Sys2Proof/Machine/Unpacker.lean ====
section
/-! DEFINITION. The operations of the code unpacker (40_unpacker.md rules R111 to R114). The chunk has been consumed
by the fetch (R110). -/

namespace Sys2Proof.Machine

/-- `UNPK3` (R111): append the two codes of the group, the first one first (R117). -/
def execUnpk3 (code1 code2 : Code) (s : State) : Host.Outcome State Fault Refusal :=
  .next (cqAppend code2 (cqAppend code1 s))

/-- `UNPK2` (R112): append the code of the tail; the padding has no effect (U5). -/
def execUnpk2 (_pad : BitVec 4) (code : Code) (s : State) : Host.Outcome State Fault Refusal :=
  .next (cqAppend code s)

/-- `UNPK1` (R113): a dangling byte is malformed input, whatever its value. -/
def execUnpk1 (byte : Byte) (s : State) : Host.Outcome State Fault Refusal :=
  .next (raiseError .invalidData { cause := .danglingByte, index := s.rp - 1, value := byte.toNat } s)

/-- `UNPK0` (R114): `UNPACK` ends with the codes, any other operation goes on to the decoder. -/
def execUnpk0 (s : State) : Host.Outcome State Fault Refusal :=
  if s.op = some .unpack then .next (finishRun s.cq.length s) else .next (enterDecode s)

end Sys2Proof.Machine
end

