-- ==== Sys2Proof/Machine/Dispatch.lean ====
section
/-! DEFINITION. One arm per operation (30_encoding.md rule R96). -/

namespace Sys2Proof.Machine

def exec (i : Instr) (s : State) : Host.Outcome State Fault Refusal :=
  match i with
  | .unpk3 code1 code2 => Sys2Proof.Machine.execUnpk3 code1 code2 s
  | .unpk2 pad code => Sys2Proof.Machine.execUnpk2 pad code s
  | .unpk1 byte => Sys2Proof.Machine.execUnpk1 byte s
  | .unpk0 => Sys2Proof.Machine.execUnpk0 s
  | .dempty => Sys2Proof.Machine.execDempty s
  | .dinit => Sys2Proof.Machine.execDinit s
  | .dfirst sym => Sys2Proof.Machine.execDfirst sym s
  | .dfirstbad code => Sys2Proof.Machine.execDfirstbad code s
  | .dlit sym => Sys2Proof.Machine.execDlit sym s
  | .dref code => Sys2Proof.Machine.execDref code s
  | .dnew code => Sys2Proof.Machine.execDnew code s
  | .dbad code => Sys2Proof.Machine.execDbad code s
  | .dend => Sys2Proof.Machine.execDend s
  | .unpack src => Sys2Proof.Machine.execUnpack src s
  | .decode codes => Sys2Proof.Machine.execDecode codes s
  | .decompress src => Sys2Proof.Machine.execDecompress src s
  | .extract src sink => Sys2Proof.Machine.execExtract src sink s

end Sys2Proof.Machine
end

