-- ==== Sys2Proof/Machine/Fetch.lean ====
section
/-! DEFINITION. Selecting the next operation (40_unpacker.md rule R110, 41_decoder.md rule R130, 42_host_operations.md
rules R178 and R180). The triple (`PHASE`, `rp`, `ci`) stands in the place of a program counter (10_state.md rule
R32). -/

namespace Sys2Proof.Machine

/-- What the next step is. -/
inductive Fetched where
  /-- nothing to do: no run, and the host starts none (R180, R231) -/
  | wait (s : State)
  /-- the hardware reset is asserted (R231) -/
  | reset (s : State)
  /-- an operation, in the state that has consumed its words -/
  | run (i : Instr) (s : State)
  /-- no operation is selected, which no rule leads to -/
  | stuck (f : Fault)
deriving DecidableEq, Repr

/-- Decode the words in their context. -/
def selectOp (ctx : Context) (w : Words) (s : State) : Fetched :=
  match decode ctx w with
  | .ok i => .run i s
  | .error why => .stuck (.undecodable why)

/-- The unpack loop (R110): three bytes into the latches, and the operation the chunk just read selects. The operation
reads the latches of its own fetch and nothing else does (R22), so they are never met unwritten. -/
def fetchUnpack (s : State) : Fetched :=
  selectOp .unpacking (.chunk (srcRead Config.groupBytes s).1) (fetchChunk s)

/-- The decode loop (R130): its start, then one code after the other, then its end. The class of a code is decided on the
code just latched (R24), with the position and the `dict_size` from before the step (R135, R236). -/
def fetchDecode (s : State) : Fetched :=
  if s.decStarted then
    match cqNext s with
    | some (c, s') => selectOp (.decoding s.ci s.dictSize) (.code c) s'
    | none =>
      if s.ci = s.cq.length ∧ 0 < s.cq.length then selectOp .ended .nothing s
      else .stuck .noOperationSelected
  else selectOp (.starting s.cq.length) .nothing s

/-- The next operation of the run in progress. -/
def fetchRun (s : State) : Fetched :=
  match s.phase with
  | .unpack => fetchUnpack s
  | .decode => fetchDecode s
  | .idle => .wait s
  | .done => .wait s
  | .failed => .wait s

/-- The next step. A start waits for the outcome of the run in progress (R178); a reset does not (R231). -/
def fetch (s : State) : Fetched :=
  match s.host with
  | .reset :: rest => .reset { s with host := rest }
  | .pass :: rest => fetchRun { s with host := rest }
  | .start c :: rest =>
    if s.running then fetchRun s else selectOp .waiting (.command c) { s with host := rest }
  | [] => fetchRun s

/-- `s` with the chunk `bytes` as its whole byte source, in the unpack loop of an `UNPACK`. -/
def placeChunk (bytes : List Byte) (s : State) : State :=
  { s with host := [], phase := .unpack, op := some .unpack, srcHeld := true, input := bytes, rp := 0 }

/-- `s` with the code `c` as its whole code sequence, in the decode loop of a `DECODE`, past its start. -/
def placeCode (c : Code) (s : State) : State :=
  { s with host := [], phase := .decode, op := some .decode, decStarted := true, cq := [c], ci := 0
           dictSize := Config.base }

end Sys2Proof.Machine
end

