-- ==== Sys2Proof/Machine/Step.lean ====
section
/-! DEFINITION. One step of the block: one operation (70_reset_and_hazards.md rule R246). -/

namespace Sys2Proof.Machine

/-- One step. -/
def step (s : State) : Host.Outcome State Fault Refusal :=
  match fetch s with
  | .wait s' => .next s'
  | .reset s' => .next (hardwareReset s')
  | .run i s' => exec i s'
  | .stuck f => .fault f

/-- `s` with a word of the opcode table placed so that the very next step runs it (log entry 9). -/
def State.withFetchWord (s : State) (nbits w : Nat) : State :=
  if nbits = 12 then placeCode (BitVec.ofNat 12 w) s
  else
    match tableBytes nbits w with
    | some bytes => placeChunk bytes s
    | none => s

end Sys2Proof.Machine
end

