-- ==== Sys2Proof/Machine/Bounded.lean ====
section
/-! DEFINITION. A bounded implementation (70_reset_and_hazards.md rule R244, decision D9, U7): the same block, which
refuses to go on where one of its stores would overflow, and reports neither of the block's two errors for it. -/

namespace Sys2Proof.Machine

/-- `n` is within an optional bound. -/
def withinBound (bound : Option Nat) (n : Nat) : Bool :=
  match bound with
  | some m => n ≤ m
  | none => true

/-- Every store of the state is within its bound (R5, R244). -/
def State.within (b : Config.Bounds) (s : State) : Bool :=
  withinBound b.cqCap s.cq.length
    && withinBound b.outCap s.out.length
    && s.dictRam.all (fun cell => withinBound b.entryLenMax cell.2.length)
    && s.prev.all (fun e => withinBound b.entryLenMax e.length)
    && s.cur.all (fun e => withinBound b.entryLenMax e.length)

/-- One step of a bounded implementation. -/
def stepBounded (b : Config.Bounds) (s : State) : Host.Outcome State Fault Refusal :=
  match step s with
  | .next t => if t.within b then .next t else .refused .capacityExceeded
  | .fault f => .fault f
  | .refused r => .refused r

end Sys2Proof.Machine
end

