-- ==== Sys2Proof/Machine/HostView.lean ====
section
/-! DEFINITION. What the host can read, and when (10_state.md rule R35, 42_host_operations.md rule R175, decision
D11). -/

namespace Sys2Proof.Machine

/-- The result of a completed operation (R170). -/
inductive Result where
  | codes (l : List Code)
  | text (l : Str)
  | success
deriving DecidableEq, Repr

/-- The outcome of a run (R9). -/
inductive RunOutcome where
  | ok (r : Result)
  | fail (e : Err)
deriving DecidableEq, Repr

/-- `CQ` whole for `UNPACK`, `OUT` whole for `DECODE` and `DECOMPRESS`, success for `EXTRACT` (R35, R174). -/
def resultOf (s : State) : Result :=
  match s.op with
  | some .unpack => .codes s.cq
  | some .extract => .success
  | some .decode => .text s.out
  | some .decompress => .text s.out
  | none => .text s.out

/-- The outcome the host sees: only in DONE and FAILED (R35, R175, R180). -/
def outcome (s : State) : Option RunOutcome :=
  match s.phase with
  | .done => some (.ok (resultOf s))
  | .failed => some (.fail s.err)
  | .idle => none
  | .unpack => none
  | .decode => none

/-- `OUTLEN` as the host reads it (R35). -/
def readOutlen (s : State) : Nat :=
  if s.phase = .done then s.outlen else 0

/-- `ERR` and `ERRINFO` as the host reads them: nothing during a run (D11). -/
def readError (s : State) : Option (BitVec 2 × ErrInfo) :=
  if s.running then none else some (s.err.number, s.errinfo)

end Sys2Proof.Machine
end

