-- ==== Sys2Proof/Machine/ClosedForm.lean ====
section
/-! DEFINITION. The two components and the four operations as functions of their input (40_unpacker.md rule R115,
41_decoder.md rule R151, 42_host_operations.md rules R171 to R174), written apart from the step machine. -/

namespace Sys2Proof.Machine

/-- The unpacker on the list of bytes (R115). -/
def unpackClosed : List Byte → Except Err (List Code)
  | [] => .ok []
  | [_] => .error .invalidData
  | [b0, b1] => .ok [assembleTail b0 b1]
  | b0 :: b1 :: b2 :: rest =>
    match unpackClosed rest with
    | .ok codes => .ok (assembleFirst b0 b1 :: assembleSecond b1 b2 :: codes)
    | .error e => .error e

/-- `ram[ds := e]` (R151). -/
def ramUpdate (ram : Nat → Option Entry) (ds : Nat) (e : Entry) : Nat → Option Entry :=
  fun k => if k = ds then some e else ram k

/-- The string a code after the first decodes to (R151): `none` where `ram[c]` is not defined, else an entry or the
error. -/
def currentClosed (c : Code) (ds : Nat) (ram : Nat → Option Entry) (prev : Entry) : Option (Except Err Entry) :=
  if c.toNat < 256 then some (.ok (Entry.single (c.setWidth 8)))
  else if c.toNat < ds then (ram c.toNat).map .ok
  else if c.toNat = ds then some (.ok (prev.snoc prev.first))
  else some (.error .unknownCode)

/-- `run` of R151; `none` where it would read a key of `ram` that is not defined, which R151 says never happens. -/
def runClosed : List Code → Nat → (Nat → Option Entry) → Entry → Str → Option (Except Err Str)
  | [], _, _, _, out => some (.ok out)
  | c :: cs, ds, ram, prev, out =>
    match currentClosed c ds ram prev with
    | none => none
    | some (.error e) => some (.error e)
    | some (.ok cur) =>
      runClosed cs (if ds + 1 = 4096 then 256 else ds + 1) (ramUpdate ram ds (prev.snoc cur.first)) cur
        (out ++ cur.toStr)

/-- `decode` of R151 (decisions D5, D6). -/
def decodeClosed : List Code → Option (Except Err Str)
  | [] => some (.error .invalidData)
  | c0 :: rest =>
    if 256 ≤ c0.toNat then some (.error .unknownCode)
    else runClosed rest 256 (fun _ => none) (Entry.single (c0.setWidth 8)) (Entry.single (c0.setWidth 8)).toStr

/-- `DECOMPRESS` is `UNPACK` then `DECODE` (R173). -/
def decompressClosed (src : List Byte) : Option (Except Err Str) :=
  match unpackClosed src with
  | .ok codes => decodeClosed codes
  | .error e => some (.error e)

/-- An outcome from a function's value. -/
def toOutcome {α : Type} (f : α → Result) (r : Except Err α) : RunOutcome :=
  match r with
  | .ok v => .ok (f v)
  | .error e => .fail e

/-- The outcome of each host operation (R171 to R174). -/
def closedOutcome : HostCmd → Option RunOutcome
  | .unpack src => some (toOutcome .codes (unpackClosed src))
  | .decode codes => (decodeClosed codes).map (toOutcome .text)
  | .decompress src => (decompressClosed src).map (toOutcome .text)
  | .extract src _ => (decompressClosed src).map (toOutcome fun _ => .success)

/-- What each host operation adds to the sinks: the whole text in one write, or nothing (R174, R199). -/
def closedSinkWrites : HostCmd → List (SinkId × Str)
  | .unpack _ => []
  | .decode _ => []
  | .decompress _ => []
  | .extract src sink =>
    match decompressClosed src with
    | some (.ok text) => [(sink, text)]
    | some (.error _) => []
    | none => []

/-- An upper bound of the steps from the start of an operation to its outcome (R180, R246). -/
def stepBound : HostCmd → Nat
  | .unpack src => 1 + (src.length / 3 + 2)
  | .decode codes => 1 + (codes.length + 2)
  | .decompress src => 1 + (src.length / 3 + 2) + (2 * (src.length / 3) + 1 + 2)
  | .extract src _ => 1 + (src.length / 3 + 2) + (2 * (src.length / 3) + 1 + 2)

end Sys2Proof.Machine
end

