-- ==== Sys2Proof/Safety.lean ====
section
/-! DEFINITION. What a sound state of the block is, the facts the rules say hold between steps, and what a sound step
never does. -/

namespace Sys2Proof.Safety

open Sys2Proof.Machine

/-- The invariant of the block between steps. -/
structure Inv (s : State) : Prop where
  /-- the dictionary RAM is canonical: keys 256 to 4095, strictly rising (R59) -/
  memory : Memory.wf s.dictRam = true
  /-- `dict_size` is between 256 and 4095 (R27) -/
  counter : 256 ≤ s.dictSize ∧ s.dictSize ≤ 4095
  /-- every valid key of the RAM has been written (R60, R151) -/
  known : ∀ k, 256 ≤ k → k < s.dictSize → (ramLookup k s.dictRam).isSome = true
  /-- `0 <= rp <= N` (R21) -/
  source : s.rp ≤ s.input.length
  /-- `chn` is at most 3 (R22) -/
  chunk : s.chn ≤ 3
  /-- `0 <= ci <= |CQ|` (R23) -/
  sequence : s.ci ≤ s.cq.length
  /-- `PHASE` = FAILED if and only if `ERR` is not 0 (R33) -/
  failed : s.phase = .failed ↔ s.err ≠ .none
  /-- `ERRINFO` is written together with `ERR` (R34) -/
  info : s.errinfo.cause = .none ↔ s.err = .none
  /-- `OUTLEN` is 0 but in DONE (R35) -/
  hidden : s.phase ≠ .done → s.outlen = 0
  /-- `OUTLEN` in DONE is the length of the result (R35) -/
  shown : s.phase = .done → s.outlen = if s.op = some .unpack then s.cq.length else s.out.length
  /-- the source is claimed exactly during a run that has one (R177) -/
  srcClaim : s.srcHeld = true ↔ s.running = true ∧ s.op ≠ some .decode
  /-- a sink is claimed exactly during an `EXTRACT` (R174, R177) -/
  sinkClaim : s.sinkHeld.isSome = true ↔ s.running = true ∧ s.op = some .extract
  /-- a run is of a host operation, and `DECODE` does not unpack (R170, R172) -/
  operation : s.running = true → s.op.isSome = true
  noUnpackInDecode : s.phase = .unpack → s.op ≠ some .decode ∧ s.decStarted = false
  noDecodeInUnpack : s.phase = .decode → s.op ≠ some .unpack
  /-- before its start the decoder has consumed and written nothing (R130, R173) -/
  fresh : s.running = true → s.decStarted = false →
    s.ci = 0 ∧ s.dictSize = 256 ∧ s.nreset = 0 ∧ s.prev = none ∧ s.cur = none ∧ s.out = []
  /-- past its start the decoder has a sequence that is not empty (R130 (i)) -/
  started : s.phase = .decode → s.decStarted = true → 0 < s.cq.length
  /-- nothing is decoded before the first code -/
  unread : s.running = true → s.ci = 0 → s.dictSize = 256 ∧ s.nreset = 0 ∧ s.out = []
  /-- `prev` is written once the first code has been (R29) -/
  previous : s.phase = .decode → 0 < s.ci → s.prev.isSome = true

/-- The counter depends only on how many codes were processed (R148 (a)). -/
def CounterLaw (s : State) : Prop :=
  s.phase ≠ .failed → s.dictSize = 256 + (s.ci - 1) % 3840 ∧ s.nreset = (s.ci - 1) / 3840

/-- Lengths after `k = ci` codes (R148 (c), (d)): no valid entry is longer than `k`, every one has at least 2 symbols,
`k <= |OUT| <= k * (k + 1) / 2`. -/
def LengthLaw (s : State) : Prop :=
  s.phase = .decode →
    (∀ e, s.prev = some e → e.length ≤ s.ci)
    ∧ (∀ k e, k < s.dictSize → ramLookup k s.dictRam = some e → 2 ≤ e.length ∧ e.length ≤ s.ci)
    ∧ s.ci ≤ s.out.length ∧ 2 * s.out.length ≤ s.ci * (s.ci + 1)

/-- The misreads of a step: an operation that reads `prev` where it has never been written. The machine goes on with a
free value; that no step of a run does so is the proof obligation of 93_implementation_defined.md U4. -/
def misreads (i : Instr) (s : State) : Bool :=
  match i with
  | .dlit _ => s.prev.isNone
  | .dref _ => s.prev.isNone
  | .dnew _ => s.prev.isNone
  | .unpk3 _ _ => false
  | .unpk2 _ _ => false
  | .unpk1 _ => false
  | .unpk0 => false
  | .dempty => false
  | .dinit => false
  | .dfirst _ => false
  | .dfirstbad _ => false
  | .dbad _ => false
  | .dend => false
  | .unpack _ => false
  | .decode _ => false
  | .decompress _ => false
  | .extract _ _ => false

end Sys2Proof.Safety
end

