-- ==== Sys2Proof/Certificates/Slice0/Obligations.lean ====
section
/-! DEFINITION. The statements for the provers. Numbers are written out (256, 4096, 3840), so that a statement does
not move with a constant of the model. -/

open Sys2Proof Sys2Proof.Machine Sys2Proof.Safety

/-! ### Selecting and decoding -/

/-- A quiet step of a run performs the operation that the words under the cursor decode to, in the state that has
consumed them; a quiet step with no run and a start pending performs the command (R110, R130, R170). -/
def Obligations.StepRunsTheDecodedOperation : Prop :=
  ∀ s : State,
    (∀ bytes i, s.quiet = true → s.phase = .unpack → bytes = (s.input.drop s.rp).take 3 →
      decode .unpacking (.chunk bytes) = .ok i →
      step s = exec i { s with
        rp := s.rp + bytes.length, chn := bytes.length, b0 := bytes[0]?, b1 := bytes[1]?, b2 := bytes[2]? })
    ∧ (∀ c i, s.quiet = true → s.phase = .decode → s.decStarted = true → s.cq[s.ci]? = some c →
      decode (.decoding s.ci s.dictSize) (.code c) = .ok i →
      step s = exec i { s with ci := s.ci + 1, code := some c })
    ∧ (∀ i, s.quiet = true → s.phase = .decode → s.decStarted = false →
      decode (.starting s.cq.length) .nothing = .ok i → step s = exec i s)
    ∧ (∀ i, s.quiet = true → s.phase = .decode → s.decStarted = true → s.ci = s.cq.length → 0 < s.cq.length →
      decode .ended .nothing = .ok i → step s = exec i s)
    ∧ (∀ c i rest, s.running = false → s.host = .start c :: rest →
      decode .waiting (.command c) = .ok i → step s = exec i { s with host := rest })

/-- With no run in progress and no event of the host a step changes nothing (the model's choice, log entry 8: R180
says that no step is enabled); letting one step go by is a step without that event. -/
def Obligations.IdleBlockWaits : Prop :=
  ∀ s : State,
    (s.running = false → s.host = [] → step s = .next s)
    ∧ (∀ rest, s.running = false → s.host = .pass :: rest → step s = .next { s with host := rest })
    ∧ (∀ rest, s.running = true → s.host = .pass :: rest → ({ s with host := rest } : State).quiet = true →
      step s = step { s with host := rest })

/-- Decoding the words of an operation, in a context that selects it, gives the operation back. -/
def Obligations.EncodedOperationDecodesBack : Prop :=
  ∀ (ctx : Context) (i : Instr), ctx.selects i = true → decode ctx (encode i) = .ok i

/-- What decodes encodes back to the same words, was selected by its context, and is well-formed wherever the counter
is in its range. -/
def Obligations.DecodedWordsEncodeBack : Prop :=
  ∀ (ctx : Context) (w : Words) (i : Instr), decode ctx w = .ok i →
    encode i = w ∧ ctx.selects i = true
    ∧ ((∀ pos dictSize, ctx = .decoding pos dictSize → 256 ≤ dictSize ∧ dictSize ≤ 4095) → i.wf = true)

/-- The length of the chunk alone selects the unpacker's operation, whatever its bytes (R81). -/
def Obligations.ChunkLengthSelects : Prop :=
  ∀ bytes : List Byte,
    (bytes.length = 3 → ∃ c1 c2, decode .unpacking (.chunk bytes) = .ok (.unpk3 c1 c2))
    ∧ (bytes.length = 2 → ∃ p c, decode .unpacking (.chunk bytes) = .ok (.unpk2 p c))
    ∧ (bytes.length = 1 → ∃ b, decode .unpacking (.chunk bytes) = .ok (.unpk1 b))
    ∧ (bytes.length = 0 → decode .unpacking (.chunk bytes) = .ok .unpk0)

/-- Format G3: bits 23:12 of the word of three bytes are the first code, bits 11:0 the second (R82). -/
def Obligations.GroupFieldsAreBitSlices : Prop :=
  ∀ b0 b1 b2 : Byte,
    decode .unpacking (.chunk [b0, b1, b2])
      = .ok (.unpk3 ((b0 ++ b1 ++ b2).extractLsb' 12 12) ((b0 ++ b1 ++ b2).extractLsb' 0 12))

/-- Format G2: bits 15:12 of the word of two bytes are padding, bits 11:0 the code (R83). -/
def Obligations.TailFieldsAreBitSlices : Prop :=
  ∀ b0 b1 : Byte,
    decode .unpacking (.chunk [b0, b1])
      = .ok (.unpk2 ((b0 ++ b1).extractLsb' 12 4) ((b0 ++ b1).extractLsb' 0 12))

/-- The three assembly formulas, on unbounded integers, are what the decoder computes in 12 bits (R86). -/
def Obligations.AssemblyFormulasAreExact : Prop :=
  ∀ b0 b1 b2 : Byte,
    (∃ c1 c2 : Code, decode .unpacking (.chunk [b0, b1, b2]) = .ok (.unpk3 c1 c2)
      ∧ c1.toNat = (b0.toNat <<< 4) ||| (b1.toNat >>> 4)
      ∧ c2.toNat = ((b1.toNat &&& 0x0F) <<< 8) ||| b2.toNat)
    ∧ (∃ (p : BitVec 4) (c : Code), decode .unpacking (.chunk [b0, b1]) = .ok (.unpk2 p c)
      ∧ c.toNat = ((b0.toNat &&& 0x0F) <<< 8) ||| b1.toNat)

/-- Words written out from the encodings of the spec decode to the operations they stand for. -/
def Obligations.SpecWordsDecode : Prop :=
  decode .unpacking (.chunk [0xAB#8, 0xCD#8, 0xEF#8]) = .ok (.unpk3 0xABC#12 0xDEF#12)
  ∧ decode .unpacking (.chunk [0xFA#8, 0xBC#8]) = .ok (.unpk2 0xF#4 0xABC#12)
  ∧ decode .unpacking (.chunk [0xAB#8]) = .ok (.unpk1 0xAB#8)
  ∧ decode .unpacking (.chunk []) = .ok .unpk0
  ∧ decode (.decoding 0 256) (.code 0x041#12) = .ok (.dfirst 0x41#8)
  ∧ decode (.decoding 0 256) (.code 0x100#12) = .ok (.dfirstbad 0x100#12)
  ∧ decode (.decoding 1 256) (.code 0x041#12) = .ok (.dlit 0x41#8)
  ∧ decode (.decoding 2 257) (.code 0x100#12) = .ok (.dref 0x100#12)
  ∧ decode (.decoding 1 256) (.code 0x100#12) = .ok (.dnew 0x100#12)
  ∧ decode (.decoding 1 256) (.code 0x101#12) = .ok (.dbad 0x101#12)

/-- The classes of a code are the intervals of R88, disjoint and complete. -/
def Obligations.CodeClassesPartition : Prop :=
  ∀ (pos dictSize : Nat) (c : Code) (i : Instr), 256 ≤ dictSize → dictSize ≤ 4095 →
    (decode (.decoding pos dictSize) (.code c) = .ok i ↔
      (pos = 0 ∧ c.toNat < 256 ∧ i = .dfirst (c.setWidth 8))
      ∨ (pos = 0 ∧ 256 ≤ c.toNat ∧ i = .dfirstbad c)
      ∨ (0 < pos ∧ c.toNat < 256 ∧ i = .dlit (c.setWidth 8))
      ∨ (0 < pos ∧ 256 ≤ c.toNat ∧ c.toNat < dictSize ∧ i = .dref c)
      ∨ (0 < pos ∧ c.toNat = dictSize ∧ i = .dnew c)
      ∨ (0 < pos ∧ dictSize < c.toNat ∧ i = .dbad c))

/-- The packed form of a code sequence unpacks to it, and never has a dangling byte (R95, an inference of the spec).
-/
def Obligations.PackedCodesUnpackBack : Prop :=
  ∀ codes : List Code, unpackClosed (pack codes) = .ok codes ∧ (pack codes).length % 3 ≠ 1

/-! ### The code unpacker -/

/-- A step on a full group appends its two codes, the first one first (R111). -/
def Obligations.FullGroupStepAppendsTwoCodes : Prop :=
  ∀ (s : State) (b0 b1 b2 : Byte) (rest : List Byte),
    s.quiet = true → s.phase = .unpack → s.input.drop s.rp = b0 :: b1 :: b2 :: rest →
    ∃ (t : State) (c1 c2 : Code), step s = .next t
      ∧ c1.toNat = (b0.toNat <<< 4) ||| (b1.toNat >>> 4)
      ∧ c2.toNat = ((b1.toNat &&& 0x0F) <<< 8) ||| b2.toNat
      ∧ t.cq = s.cq ++ [c1, c2] ∧ t.rp = s.rp + 3 ∧ t.chn = 3
      ∧ t.b0 = some b0 ∧ t.b1 = some b1 ∧ t.b2 = some b2
      ∧ t.phase = .unpack ∧ t.err = s.err

/-- A step on a tail of two bytes appends its one code, whatever the padding (R112). -/
def Obligations.TailStepAppendsOneCode : Prop :=
  ∀ (s : State) (b0 b1 : Byte),
    s.quiet = true → s.phase = .unpack → s.input.drop s.rp = [b0, b1] →
    ∃ (t : State) (c : Code), step s = .next t
      ∧ c.toNat = ((b0.toNat &&& 0x0F) <<< 8) ||| b1.toNat
      ∧ t.cq = s.cq ++ [c] ∧ t.rp = s.rp + 2 ∧ t.chn = 2
      ∧ t.b0 = some b0 ∧ t.b1 = some b1 ∧ t.b2 = none
      ∧ t.phase = .unpack ∧ t.err = s.err

/-- A step on a dangling byte raises `InvalidDataError`, whatever the byte, and emits no code (R113). -/
def Obligations.DanglingByteStepRaises : Prop :=
  ∀ (s : State) (b : Byte),
    s.quiet = true → s.phase = .unpack → s.input.drop s.rp = [b] →
    ∃ t : State, step s = .next t
      ∧ t.phase = .failed ∧ t.err = .invalidData
      ∧ t.errinfo = { cause := .danglingByte, index := s.rp, value := b.toNat }
      ∧ outcome t = some (.fail .invalidData)
      ∧ t.cq = s.cq ∧ t.rp = s.rp + 1 ∧ t.rp = s.input.length ∧ t.outlen = 0

/-- At the end of the stream `UNPACK` ends with the codes; any other operation goes on to the decoder (R114). -/
def Obligations.EndOfStreamStepEndsTheUnpack : Prop :=
  ∀ s : State, s.quiet = true → s.phase = .unpack → s.input.length ≤ s.rp →
    ∃ t : State, step s = .next t ∧ t.cq = s.cq ∧ t.rp = s.rp ∧ t.chn = 0 ∧ t.err = s.err
      ∧ (s.op = some .unpack → t.phase = .done ∧ outcome t = some (.ok (.codes s.cq)))
      ∧ (s.op = some .decompress ∨ s.op = some .extract → t.phase = .decode ∧ outcome t = none)

/-- The four operations of the unpacker complete in every state, each with the whole next state: nothing else changes.
The claims and the start mark of the decoder are the model's own fields (log entries 3, 5). -/
def Obligations.UnpackerOperationsComplete : Prop :=
  ∀ s : State,
    (∀ code1 code2, exec (.unpk3 code1 code2) s = .next { s with cq := s.cq ++ [code1, code2] })
    ∧ (∀ pad code, exec (.unpk2 pad code) s = .next { s with cq := s.cq ++ [code] })
    ∧ (∀ byte, exec (.unpk1 byte) s = .next { s with
        err := .invalidData
        errinfo := { cause := .danglingByte, index := s.rp - 1, value := byte.toNat }
        outlen := 0, phase := .failed, srcHeld := false, sinkHeld := none })
    ∧ (s.op = some .unpack → exec .unpk0 s = .next { s with
        outlen := s.cq.length, phase := .done, srcHeld := false, sinkHeld := none })
    ∧ (s.op ≠ some .unpack → exec .unpk0 s = .next { s with phase := .decode, decStarted := false })

/-- A step of the unpacker leaves the source, the dictionary, the decoder's registers and the output as they were, and
the error registers too unless it read a dangling byte (R119). -/
def Obligations.UnpackerTouchesNoDecoderState : Prop :=
  ∀ s t : State, s.quiet = true → s.phase = .unpack → step s = .next t →
    t.input = s.input ∧ t.dictSize = s.dictSize ∧ t.prev = s.prev ∧ t.cur = s.cur ∧ t.out = s.out
    ∧ t.ci = s.ci ∧ t.code = s.code ∧ t.nreset = s.nreset ∧ t.sinkLog = s.sinkLog ∧ t.host = s.host ∧ t.epoch = s.epoch
    ∧ (∀ k, ramLookup k t.dictRam = ramLookup k s.dictRam)
    ∧ (t.chn ≠ 1 → t.err = s.err ∧ t.errinfo = s.errinfo)

/-! ### The dictionary decoder -/

/-- `DEMPTY`, selected by an empty sequence, raises `InvalidDataError` (decision D5 of the spec) and changes nothing
but the status and the claims. -/
def Obligations.EmptySequenceRaises : Prop :=
  (∀ count, decode (.starting count) .nothing = .ok .dempty ↔ count = 0)
  ∧ ∀ s : State, exec .dempty s = .next { s with
      err := .invalidData, errinfo := { cause := .emptySequence, index := 0, value := 0 }
      outlen := 0, phase := .failed, srcHeld := false, sinkHeld := none }

/-- `DINIT`, selected by a sequence that is not empty, sets the counter to 256 and nothing else of the spec's state;
then exactly the keys below 256 are valid, and each reads as its own symbol (R132). -/
def Obligations.DinitMakesOnlyTheBaseValid : Prop :=
  (∀ count, decode (.starting count) .nothing = .ok .dinit ↔ 1 ≤ count)
  ∧ ∀ s : State, ∃ t : State, exec .dinit s = .next t
      ∧ t = { s with dictSize := 256, decStarted := t.decStarted }
      ∧ (∀ k, validKey k t = true ↔ k < 256)
      ∧ (∀ k, k < 256 → dictRead k t = .ok { first := BitVec.ofNat 8 k, rest := [] })

/-- `DFIRST`, selected by position 0 and a code below 256, writes `prev` and appends the symbol, in every state; no
entry is inserted (R133). -/
def Obligations.FirstCodeIsItsSymbol : Prop :=
  (∀ pos dictSize c sym, decode (.decoding pos dictSize) (.code c) = .ok (.dfirst sym)
    ↔ pos = 0 ∧ c.toNat < 256 ∧ sym = c.setWidth 8)
  ∧ ∀ (s : State) (sym : Sym),
      exec (.dfirst sym) s = .next { s with prev := some { first := sym, rest := [] }, out := s.out ++ [sym] }

/-- `DFIRSTBAD`, selected by position 0 and a code from 256 up, raises `UnknownCodeError` (decision D6 of the spec)
and changes nothing but the status and the claims. -/
def Obligations.BadFirstCodeRaises : Prop :=
  (∀ pos dictSize c c', decode (.decoding pos dictSize) (.code c) = .ok (.dfirstbad c')
    ↔ pos = 0 ∧ 256 ≤ c.toNat ∧ c' = c)
  ∧ ∀ (s : State) (code : Code), exec (.dfirstbad code) s = .next { s with
      err := .unknownCode, errinfo := { cause := .firstCode, index := 0, value := code.toNat }
      outlen := 0, phase := .failed, srcHeld := false, sinkHeld := none }

/-- `DLIT`, selected by a later position and a code below 256, completes with the symbol as `cur`, the tail steps
done, and every other location of the RAM and every other field as before (R136, R140 to R143). -/
def Obligations.LiteralCodeStep : Prop :=
  (∀ pos dictSize c sym, decode (.decoding pos dictSize) (.code c) = .ok (.dlit sym)
    ↔ 0 < pos ∧ c.toNat < 256 ∧ sym = c.setWidth 8)
  ∧ ∀ (s : State) (sym : Sym) (p : Entry), s.prev = some p → 256 ≤ s.dictSize → s.dictSize ≤ 4095 →
      ∃ t : State, exec (.dlit sym) s = .next t
        ∧ t = { s with
            cur := some { first := sym, rest := [] }, prev := some { first := sym, rest := [] }
            out := s.out ++ [sym]
            dictSize := if s.dictSize + 1 = 4096 then 256 else s.dictSize + 1
            nreset := if s.dictSize + 1 = 4096 then s.nreset + 1 else s.nreset
            dictRam := t.dictRam }
        ∧ ∀ k, ramLookup k t.dictRam
            = if k = s.dictSize then some { first := p.first, rest := p.rest ++ [sym] } else ramLookup k s.dictRam

/-- `DREF`, selected by a later position and a code from 256 to below the counter, completes with the entry its code
addresses as `cur`, the tail steps done, and every other location of the RAM and every other field as before (R137,
R140 to R143). -/
def Obligations.ReferenceCodeStep : Prop :=
  (∀ pos dictSize c c', decode (.decoding pos dictSize) (.code c) = .ok (.dref c')
    ↔ 0 < pos ∧ 256 ≤ c.toNat ∧ c.toNat < dictSize ∧ c' = c)
  ∧ ∀ (s : State) (c : Code) (p e : Entry), s.prev = some p → s.dictSize ≤ 4095 →
      256 ≤ c.toNat → c.toNat < s.dictSize → ramLookup c.toNat s.dictRam = some e →
      ∃ t : State, exec (.dref c) s = .next t
        ∧ t = { s with
            cur := some e, prev := some e
            out := s.out ++ (e.first :: e.rest)
            dictSize := if s.dictSize + 1 = 4096 then 256 else s.dictSize + 1
            nreset := if s.dictSize + 1 = 4096 then s.nreset + 1 else s.nreset
            dictRam := t.dictRam }
        ∧ ∀ k, ramLookup k t.dictRam
            = if k = s.dictSize then some { first := p.first, rest := p.rest ++ [e.first] } else ramLookup k s.dictRam

/-- `DNEW`, selected by a later position and a code equal to the counter, completes with `prev ++ first(prev)` as
`cur`, the tail steps done, and every other location of the RAM and every other field as before (R138, R140 to R143).
-/
def Obligations.NewCodeStep : Prop :=
  (∀ pos dictSize c c', decode (.decoding pos dictSize) (.code c) = .ok (.dnew c')
    ↔ 0 < pos ∧ 256 ≤ c.toNat ∧ c.toNat = dictSize ∧ c' = c)
  ∧ ∀ (s : State) (c : Code) (p : Entry), s.prev = some p → 256 ≤ s.dictSize → s.dictSize ≤ 4095 →
      ∃ t : State, exec (.dnew c) s = .next t
        ∧ t = { s with
            cur := some { first := p.first, rest := p.rest ++ [p.first] }
            prev := some { first := p.first, rest := p.rest ++ [p.first] }
            out := s.out ++ (p.first :: (p.rest ++ [p.first]))
            dictSize := if s.dictSize + 1 = 4096 then 256 else s.dictSize + 1
            nreset := if s.dictSize + 1 = 4096 then s.nreset + 1 else s.nreset
            dictRam := t.dictRam }
        ∧ ∀ k, ramLookup k t.dictRam
            = if k = s.dictSize then some { first := p.first, rest := p.rest ++ [p.first] }
              else ramLookup k s.dictRam

/-- The entry a new code gets is the string it decoded to (R147, an inference of the spec). -/
def Obligations.NewCodeEntryIsItsString : Prop :=
  ∀ (s t : State) (c : Code), c.toNat = s.dictSize → exec (.dnew c) s = .next t →
    ∃ e, t.cur = some e ∧ ramLookup c.toNat t.dictRam = some e

/-- Where the three inserting operations stop, and that they stop nowhere else. With the counter from 256 to 4095 `DLIT`
and `DNEW` answer a next state, and so does a `DREF` whose read answers. They stop on a read of a key that is not valid or
not written (R60, R232), and on a write outside the RAM (R61); these are the model's faults, and no run reaches them. Where
`prev` has never been written they go on with some entry in its place, the same for all three: a free value, the model's
choice (log entry 21), which departs from U4: it advises a fault of the model there, not a value. -/
def Obligations.InsertingStepsStopOnlyAtTheDictionary : Prop :=
  ∀ s : State,
    (256 ≤ s.dictSize → s.dictSize ≤ 4095 →
      (∀ sym, ∃ t, exec (.dlit sym) s = .next t)
      ∧ (∀ c, ∃ t, exec (.dnew c) s = .next t)
      ∧ (∀ c e, dictRead c.toNat s = .ok e → ∃ t, exec (.dref c) s = .next t))
    ∧ (∀ c f, dictRead c.toNat s = .error f → exec (.dref c) s = .fault f)
    ∧ (s.dictSize < 256 ∨ 4096 ≤ s.dictSize →
      (∀ sym, exec (.dlit sym) s = .fault (.dictWriteOutside s.dictSize))
      ∧ (∀ c, exec (.dnew c) s = .fault (.dictWriteOutside s.dictSize))
      ∧ (∀ c e, dictRead c.toNat s = .ok e → exec (.dref c) s = .fault (.dictWriteOutside s.dictSize)))
    ∧ (s.prev = none → ∃ p : Entry,
      (∀ sym, exec (.dlit sym) s = exec (.dlit sym) { s with prev := some p })
      ∧ (∀ c, exec (.dref c) s = exec (.dref c) { s with prev := some p })
      ∧ (∀ c, exec (.dnew c) s = exec (.dnew c) { s with prev := some p }))

/-- `DBAD`, selected by a later position and a code beyond the counter, raises `UnknownCodeError` before any tail
step: nothing is inserted, counted or appended (R139). -/
def Obligations.UnknownCodeRaises : Prop :=
  (∀ pos dictSize c c', decode (.decoding pos dictSize) (.code c) = .ok (.dbad c')
    ↔ 0 < pos ∧ 256 ≤ c.toNat ∧ dictSize < c.toNat ∧ c' = c)
  ∧ ∀ (s : State) (code : Code), ∃ t : State, exec (.dbad code) s = .next t
      ∧ t.phase = .failed ∧ t.err = .unknownCode
      ∧ t.errinfo = { cause := .codeBeyond, index := s.ci - 1, value := code.toNat }
      ∧ outcome t = some (.fail .unknownCode)
      ∧ t.dictRam = s.dictRam ∧ t.dictSize = s.dictSize ∧ t.prev = s.prev ∧ t.cur = s.cur ∧ t.out = s.out

/-- The frame of `DBAD`: the whole next state. The claims are the model's own fields (log entry 5). -/
def Obligations.UnknownCodeChangesOnlyTheStatus : Prop :=
  ∀ (s : State) (code : Code), exec (.dbad code) s = .next { s with
    err := .unknownCode, errinfo := { cause := .codeBeyond, index := s.ci - 1, value := code.toNat }
    outlen := 0, phase := .failed, srcHeld := false, sinkHeld := none }

/-- `raise` writes `ERR`, `ERRINFO`, `OUTLEN` and `PHASE`, the host sees the failure, and the run is over (R197). -/
def Obligations.RaisingEndsTheRun : Prop :=
  ∀ (s : State) (e : Err) (info : ErrInfo),
    (raiseError e info s).err = e ∧ (raiseError e info s).errinfo = info ∧ (raiseError e info s).outlen = 0
    ∧ (raiseError e info s).phase = .failed ∧ outcome (raiseError e info s) = some (.fail e)
    ∧ (raiseError e info s).running = false

/-- `DEND`, performed once every code is consumed, returns the text: `OUTLEN` is its length, the phase DONE, and the
outcome of a `DECODE` or a `DECOMPRESS` is the text whole (R145). -/
def Obligations.EndOfCodesReturnsTheText : Prop :=
  (∀ s : State, s.quiet = true → s.phase = .decode → s.decStarted = true → s.ci = s.cq.length →
    0 < s.cq.length → step s = exec .dend s)
  ∧ ∀ s : State, ∃ t : State, exec .dend s = .next t
      ∧ t.outlen = s.out.length ∧ t.phase = .done ∧ t.out = s.out
      ∧ (s.op = some .decode ∨ s.op = some .decompress → outcome t = some (.ok (.text s.out)))

/-- The whole next state of `DEND`: an `EXTRACT` writes the text to the sink it holds, once (R174); the claims are
released (R177; the model's own fields, log entries 5 and 7). -/
def Obligations.EndOfCodesWritesTheSinkOnce : Prop :=
  ∀ s : State,
    (∀ k, s.sinkHeld = some k → exec .dend s = .next { s with
      sinkLog := s.sinkLog ++ [(k, s.out)], outlen := s.out.length, phase := .done
      srcHeld := false, sinkHeld := none })
    ∧ (s.sinkHeld = none → exec .dend s = .next { s with
      outlen := s.out.length, phase := .done, srcHeld := false, sinkHeld := none })
    ∧ (∀ t, s.op = some .extract → exec .dend s = .next t → outcome t = some (.ok .success))

/-- A step of the decoder leaves the source, its cursor, the chunk, the code sequence and the running operation as
they were; it never writes the sequence (R23) and revisits no code. -/
def Obligations.DecoderTouchesNoInput : Prop :=
  ∀ s t : State, s.quiet = true → s.phase = .decode → step s = .next t →
    t.input = s.input ∧ t.rp = s.rp ∧ t.chn = s.chn ∧ t.b0 = s.b0 ∧ t.b1 = s.b1 ∧ t.b2 = s.b2
    ∧ t.cq = s.cq ∧ t.op = s.op ∧ t.host = s.host ∧ t.epoch = s.epoch ∧ s.ci ≤ t.ci ∧ t.ci ≤ s.ci + 1

/-- T2 increments, and at 4096 returns to 256 and counts the reset; it writes nothing else (R141). -/
def Obligations.CounterWrapsAtCapacity : Prop :=
  ∀ s : State,
    (s.dictSize = 4095 → tailCount s = { s with dictSize := 256, nreset := s.nreset + 1 })
    ∧ (s.dictSize ≠ 4095 → tailCount s = { s with dictSize := s.dictSize + 1 })

/-! ### The dictionary as a memory -/

/-- The base alphabet reads as itself in every state (R25). -/
def Obligations.BaseAlphabetIsHardwired : Prop :=
  ∀ (s : State) (k : Nat), k < 256 → dictRead k s = .ok { first := BitVec.ofNat 8 k, rest := [] }

/-- `DictRead` of a RAM key: a written entry for a valid key, a fault of the model for an invalid one (R60). -/
def Obligations.DictReadIsValidKeysOnly : Prop :=
  ∀ (s : State) (k : Nat), 256 ≤ k →
    (∀ e, k < s.dictSize → ramLookup k s.dictRam = some e → dictRead k s = .ok e)
    ∧ (k < s.dictSize → ramLookup k s.dictRam = none → dictRead k s = .error (.entryUnwritten k))
    ∧ (s.dictSize ≤ k → dictRead k s = .error (.invalidKey k))

/-- `DictWrite` of a RAM key stores the entry there and leaves every other location and every other field (R61). -/
def Obligations.DictWriteStoresOneEntry : Prop :=
  ∀ (s : State) (k : Nat) (e : Entry), 256 ≤ k → k ≤ 4095 →
    ∃ t : State, dictWrite k e s = .ok t ∧ t = { s with dictRam := t.dictRam }
      ∧ ∀ j, ramLookup j t.dictRam = if j = k then some e else ramLookup j s.dictRam

/-- Every step keeps the canonical form of the dictionary RAM, in every state. -/
def Obligations.StepKeepsMemoryCanonical : Prop :=
  ∀ s t : State, Memory.wf s.dictRam = true → step s = .next t → Memory.wf t.dictRam = true

/-! ### The host operations -/

/-- Every host operation begins with the initialisation: from any state with no run in progress, whatever it holds
(R230). The dictionary RAM keeps what it held; none of it is valid. -/
def Obligations.EveryOperationInitialises : Prop :=
  ∀ (s : State) (c : HostCmd), s.running = false →
    ∃ t : State, exec c.toInstr s = .next t
      ∧ t.rp = 0 ∧ t.chn = 0 ∧ t.ci = 0 ∧ t.dictSize = 256 ∧ t.out = [] ∧ t.err = .none
      ∧ t.errinfo = { cause := .none, index := 0, value := 0 } ∧ t.outlen = 0 ∧ t.nreset = 0
      ∧ t.b0 = none ∧ t.b1 = none ∧ t.b2 = none ∧ t.code = none ∧ t.prev = none ∧ t.cur = none
      ∧ ((∀ codes, c ≠ .decode codes) → t.cq = []) ∧ (∀ codes, c = .decode codes → t.cq = codes)
      ∧ (∀ k, validKey k t = true ↔ k < 256)

/-- The four host operations complete from any state with no run in progress, each with the whole next state (R171 to
R174, R230). The claims, the sink log and the host's events are the model's own fields (log entries 5, 7, 8, 21). -/
def Obligations.HostOperationsComplete : Prop :=
  ∀ s : State, s.running = false →
    (∀ src, exec (.unpack src) s = .next { State.reset with
      dictRam := s.dictRam, sinkLog := s.sinkLog, host := s.host, epoch := s.epoch + 1
      phase := .unpack, op := some .unpack, input := src, srcHeld := true })
    ∧ (∀ codes, exec (.decode codes) s = .next { State.reset with
      dictRam := s.dictRam, sinkLog := s.sinkLog, host := s.host, epoch := s.epoch + 1
      phase := .decode, op := some .decode, cq := codes })
    ∧ (∀ src, exec (.decompress src) s = .next { State.reset with
      dictRam := s.dictRam, sinkLog := s.sinkLog, host := s.host, epoch := s.epoch + 1
      phase := .unpack, op := some .decompress, input := src, srcHeld := true })
    ∧ (∀ src sink, exec (.extract src sink) s = .next { State.reset with
      dictRam := s.dictRam, sinkLog := s.sinkLog, host := s.host, epoch := s.epoch + 1
      phase := .unpack, op := some .extract, input := src, srcHeld := true, sinkHeld := some sink })

/-- Starting an operation while one runs is refused by name: the spec gives it no move (decision D13). -/
def Obligations.StartDuringRunIsRefused : Prop :=
  ∀ (s : State) (c : HostCmd), s.running = true → exec c.toInstr s = .refused .startDuringRun

/-- A hardware reset abandons a run at any step: everything of the block but the dictionary RAM is at its reset value
(decision D10 of the spec). -/
def Obligations.HardwareResetAbandonsARun : Prop :=
  ∀ (s : State) (rest : List HostEvent), s.host = .reset :: rest →
    step s = .next { State.reset with
      dictRam := s.dictRam, sinkLog := s.sinkLog, host := rest, epoch := s.epoch + 1 }

/-- The state after reset (R41, with the decisions it names): IDLE, the counter at 256, no error, nothing readable, no
RAM location valid or written. -/
def Obligations.ResetLeavesTheStatedValues : Prop :=
  State.reset.rp = 0 ∧ State.reset.chn = 0 ∧ State.reset.cq = [] ∧ State.reset.ci = 0
  ∧ State.reset.dictSize = 256 ∧ State.reset.out = [] ∧ State.reset.phase = .idle ∧ State.reset.err = .none
  ∧ State.reset.errinfo = { cause := .none, index := 0, value := 0 } ∧ State.reset.outlen = 0
  ∧ State.reset.nreset = 0 ∧ State.reset.b0 = none ∧ State.reset.b1 = none ∧ State.reset.b2 = none
  ∧ State.reset.code = none ∧ State.reset.prev = none ∧ State.reset.cur = none
  ∧ outcome State.reset = none ∧ (∀ k, validKey k State.reset = true ↔ k < 256)
  ∧ ∀ k, ramLookup k State.reset.dictRam = none

/-- What the host reads: nothing during a run, the result and its length only in DONE, the error number after it
(R35, decisions D4 and D11). -/
def Obligations.HostReadsOnlyOutcomes : Prop :=
  ∀ s : State,
    (s.running = true → outcome s = none ∧ readOutlen s = 0 ∧ readError s = none)
    ∧ (s.phase = .done → readOutlen s = s.outlen
      ∧ (s.op = some .unpack → outcome s = some (.ok (.codes s.cq)))
      ∧ (s.op = some .decode ∨ s.op = some .decompress → outcome s = some (.ok (.text s.out)))
      ∧ (s.op = some .extract → outcome s = some (.ok .success)))
    ∧ (s.phase = .failed → outcome s = some (.fail s.err) ∧ readOutlen s = 0
      ∧ readError s = some (s.err.number, s.errinfo))
    ∧ (s.phase = .idle → outcome s = none ∧ readOutlen s = 0)

/-! ### Invariants -/

/-- The invariant holds at reset, and so do the two laws on the counter and on lengths. -/
def Obligations.InvariantsHoldAtReset : Prop :=
  Inv State.reset ∧ CounterLaw State.reset ∧ LengthLaw State.reset

/-- Every step keeps the invariant. -/
def Obligations.StepKeepsInvariant : Prop :=
  ∀ s t : State, Inv s → step s = .next t → Inv t

/-- From a state that meets the invariant a step never faults and is never refused, and the operation it performs never
reads `prev` unwritten: the rules never reach a fault of the model or a free value, and from any state some step is
enabled or the block waits (R232, R246, U4). -/
def Obligations.InvariantStateNeverStops : Prop :=
  ∀ s : State, Inv s →
    (∃ t : State, step s = .next t) ∧ ∀ i s', fetch s = .run i s' → misreads i s' = false

/-- The counter depends only on how many codes were processed, never on their values (R148 (a), an inference of the
spec); so the first reset is at the 3840th insertion. -/
def Obligations.StepKeepsCounterLaw : Prop :=
  ∀ s t : State, Inv s → CounterLaw s → step s = .next t → CounterLaw t

/-- The bounds on entries and on the text (R148 (c), (d), inferences of the spec) are kept by every step. -/
def Obligations.StepKeepsLengthLaw : Prop :=
  ∀ s t : State, Inv s → LengthLaw s → step s = .next t → LengthLaw t

/-- The phases change only as R32 lists. -/
def Obligations.PhaseChangesAsListed : Prop :=
  ∀ s t : State, s.quiet = true → step s = .next t →
    (s.phase = t.phase)
    ∨ (s.running = false ∧ (∃ c rest, s.host = .start c :: rest) ∧ t.running = true)
    ∨ (s.phase = .unpack ∧ t.phase = .decode ∧ t.chn = 0 ∧ s.op ≠ some .unpack)
    ∨ (s.phase = .unpack ∧ t.phase = .done ∧ t.chn = 0 ∧ s.op = some .unpack)
    ∨ (s.phase = .unpack ∧ t.phase = .failed ∧ t.chn = 1)
    ∨ (s.phase = .decode ∧ t.phase = .done ∧ s.ci = s.cq.length ∧ t.ci = s.ci)
    ∨ (s.phase = .decode ∧ t.phase = .failed ∧ (t.errinfo.cause = .emptySequence ∨ t.errinfo.cause = .firstCode
        ∨ t.errinfo.cause = .codeBeyond))

/-- During a run the code sequence and the text only grow at their ends, and the cursors only move forward, by at most
3 bytes and at most one code (R32, R64). -/
def Obligations.RunsOnlyAppend : Prop :=
  ∀ s t : State, s.quiet = true → s.running = true → step s = .next t →
    (∃ more, t.cq = s.cq ++ more) ∧ (∃ more, t.out = s.out ++ more)
    ∧ s.rp ≤ t.rp ∧ t.rp ≤ s.rp + 3 ∧ s.ci ≤ t.ci ∧ t.ci ≤ s.ci + 1

/-- Location 4095 is written and never read: a code that selects `DREF` is at most 4094 (R149, an inference of the
spec). -/
def Obligations.LastLocationIsNeverRead : Prop :=
  ∀ (s : State) (pos : Nat) (c c' : Code), Inv s →
    decode (.decoding pos s.dictSize) (.code c) = .ok (.dref c') → c'.toNat ≤ 4094

/-! ### Whole runs -/

/-- `UNPACK` of any byte stream ends, within the bound of R180, with the outcome of the closed form of R115, the whole
stream consumed (R118), and the claims released. -/
def Obligations.UnpackRunMeetsClosedForm : Prop :=
  ∀ (s : State) (src : List Byte), s.running = false → s.host = [.start (.unpack src)] →
    ∃ n t, n ≤ 1 + (src.length / 3 + 2) ∧ Host.Core.run Sys2Proof.core n s = .next t
      ∧ t.rp = src.length ∧ t.srcHeld = false ∧ t.sinkHeld = none
      ∧ (∀ codes, unpackClosed src = .ok codes → outcome t = some (.ok (.codes codes)) ∧ t.outlen = codes.length)
      ∧ (∀ e, unpackClosed src = .error e → outcome t = some (.fail e))

/-- `DECODE` of any code sequence ends, within the bound of R246, with the outcome of the closed form of R151, which
is defined on every sequence. -/
def Obligations.DecodeRunMeetsClosedForm : Prop :=
  ∀ (s : State) (codes : List Code), s.running = false → s.host = [.start (.decode codes)] →
    ∃ n t r, n ≤ 1 + (codes.length + 2) ∧ Host.Core.run Sys2Proof.core n s = .next t
      ∧ decodeClosed codes = some r ∧ t.srcHeld = false ∧ t.sinkHeld = none
      ∧ (∀ text, r = .ok text → outcome t = some (.ok (.text text)) ∧ t.outlen = text.length)
      ∧ (∀ e, r = .error e → outcome t = some (.fail e))

/-- Every host operation ends, within its bound, with the outcome its closed form gives, having written to the sinks
what the closed form says and nothing else, the claims released: `DECOMPRESS` is `UNPACK` then `DECODE` (R173),
`EXTRACT` writes the text once or nothing (R174, R199). -/
def Obligations.EveryRunMeetsItsClosedOutcome : Prop :=
  ∀ (s : State) (c : HostCmd), s.running = false → s.host = [.start c] →
    ∃ n t o, n ≤ stepBound c ∧ Host.Core.run Sys2Proof.core n s = .next t
      ∧ closedOutcome c = some o ∧ outcome t = some o
      ∧ t.sinkLog = s.sinkLog ++ closedSinkWrites c ∧ t.srcHeld = false ∧ t.sinkHeld = none

/-- Runs are independent: the outcome and the writes to the sinks depend on the operation and its operands alone, not
on the state an earlier run left (R176, R243). -/
def Obligations.RunsAreIndependent : Prop :=
  ∀ c : HostCmd, ∃ o writes, ∀ s : State, s.running = false → s.host = [.start c] →
    ∃ n t, n ≤ stepBound c ∧ Host.Core.run Sys2Proof.core n s = .next t
      ∧ outcome t = some o ∧ t.sinkLog = s.sinkLog ++ writes

/-- The closed form of the unpacker, code by code (R115, R87, inferences of the spec). -/
def Obligations.UnpackedCodesByIndex : Prop :=
  ∀ src : List Byte,
    (src.length % 3 = 1 → unpackClosed src = .error .invalidData)
    ∧ (src.length % 3 ≠ 1 → ∃ codes, unpackClosed src = .ok codes
      ∧ codes.length = 2 * (src.length / 3) + (if src.length % 3 = 2 then 1 else 0)
      ∧ (∀ i b0 b1 b2, i < src.length / 3 → src[3 * i]? = some b0 → src[3 * i + 1]? = some b1 →
        src[3 * i + 2]? = some b2 →
        codes[2 * i]? = some (assembleFirst b0 b1) ∧ codes[2 * i + 1]? = some (assembleSecond b1 b2))
      ∧ (∀ b0 b1, src.length % 3 = 2 → src[3 * (src.length / 3)]? = some b0 →
        src[3 * (src.length / 3) + 1]? = some b1 →
        codes[2 * (src.length / 3)]? = some (assembleTail b0 b1)))

/-- The unpacker's error outranks every error of the decoder: a run of `DECOMPRESS` or of `EXTRACT` on a stream with a
dangling byte fails with `InvalidDataError`, whatever its codes (R196, an inference of the spec). -/
def Obligations.DanglingByteOutranksBadCodes : Prop :=
  ∀ (s : State) (c : HostCmd) (src : List Byte), (c = .decompress src ∨ ∃ sink, c = .extract src sink) →
    src.length % 3 = 1 → s.running = false → s.host = [.start c] →
    ∃ n t, n ≤ stepBound c ∧ Host.Core.run Sys2Proof.core n s = .next t
      ∧ outcome t = some (.fail .invalidData) ∧ t.sinkLog = s.sinkLog

/-- A bounded implementation does what the block does or refuses; with no bound it is the block; and it turns no
overflow into one of the block's errors (R244). -/
def Obligations.BoundedBlockOnlyRefuses : Prop :=
  ∀ (b : Config.Bounds) (s : State),
    (∀ t, stepBounded b s = .next t ↔ step s = .next t ∧ t.within b = true)
    ∧ (∀ t, step s = .next t → t.within b = false → stepBounded b s = .refused .capacityExceeded)
    ∧ stepBounded Config.unbounded s = step s

/-! ### The model's own choices beside the rules -/

/-- A list of more than 3 bytes is rejected by name: the model's choice, log entry 20, which only makes its decoder total.
`SrcRead(3)` never returns such a list (R52), nor one that is longer than what is left of the source. -/
def Obligations.LongerChunksAreRejected : Prop :=
  (∀ bytes : List Byte, 3 < bytes.length →
    decode .unpacking (.chunk bytes) = .error (.chunkTooLong bytes.length))
  ∧ ∀ s : State, (srcRead 3 s).1.length = min 3 (s.input.length - s.rp)

/-- After an error, with nothing asked by the host, a step answers the same state: the model's choice, log entry 8 (R180
says that no step is enabled). Raising an error leaves the host's events as they were. -/
def Obligations.FailedBlockWaits : Prop :=
  ∀ (s : State) (e : Err) (info : ErrInfo),
    (raiseError e info s).host = s.host
    ∧ (s.host = [] → step (raiseError e info s) = .next (raiseError e info s))
end

