-- ==== Sys2Proof/Laws/State.lean ====
section
/-! SUPPORT. The fields of the state after each named update: one lemma per field per update, so that no later proof
unfolds a record update. -/

namespace Sys2Proof

@[simp] theorem Config.base_eq : Config.base = 256 := rfl

@[simp] theorem Config.cap_eq : Config.cap = 4096 := rfl

/-- The widths of R5 are those of the types. -/
theorem widths : Byte = BitVec Config.byteBits ∧ Code = BitVec Config.codeBits ∧ Sym = BitVec Config.symBits :=
  ⟨rfl, rfl, rfl⟩

namespace Machine

section Updates

variable (s : State)

/-! ### `cqAppend` -/

@[simp] theorem cqAppend_input (c : Code) : (cqAppend c s).input = s.input := rfl
@[simp] theorem cqAppend_rp (c : Code) : (cqAppend c s).rp = s.rp := rfl
@[simp] theorem cqAppend_b0 (c : Code) : (cqAppend c s).b0 = s.b0 := rfl
@[simp] theorem cqAppend_b1 (c : Code) : (cqAppend c s).b1 = s.b1 := rfl
@[simp] theorem cqAppend_b2 (c : Code) : (cqAppend c s).b2 = s.b2 := rfl
@[simp] theorem cqAppend_chn (c : Code) : (cqAppend c s).chn = s.chn := rfl
@[simp] theorem cqAppend_cq (c : Code) : (cqAppend c s).cq = s.cq ++ [c] := rfl
@[simp] theorem cqAppend_ci (c : Code) : (cqAppend c s).ci = s.ci := rfl
@[simp] theorem cqAppend_code (c : Code) : (cqAppend c s).code = s.code := rfl
@[simp] theorem cqAppend_dictRam (c : Code) : (cqAppend c s).dictRam = s.dictRam := rfl
@[simp] theorem cqAppend_dictSize (c : Code) : (cqAppend c s).dictSize = s.dictSize := rfl
@[simp] theorem cqAppend_prev (c : Code) : (cqAppend c s).prev = s.prev := rfl
@[simp] theorem cqAppend_cur (c : Code) : (cqAppend c s).cur = s.cur := rfl
@[simp] theorem cqAppend_out (c : Code) : (cqAppend c s).out = s.out := rfl
@[simp] theorem cqAppend_phase (c : Code) : (cqAppend c s).phase = s.phase := rfl
@[simp] theorem cqAppend_err (c : Code) : (cqAppend c s).err = s.err := rfl
@[simp] theorem cqAppend_errinfo (c : Code) : (cqAppend c s).errinfo = s.errinfo := rfl
@[simp] theorem cqAppend_outlen (c : Code) : (cqAppend c s).outlen = s.outlen := rfl
@[simp] theorem cqAppend_nreset (c : Code) : (cqAppend c s).nreset = s.nreset := rfl
@[simp] theorem cqAppend_op (c : Code) : (cqAppend c s).op = s.op := rfl
@[simp] theorem cqAppend_decStarted (c : Code) : (cqAppend c s).decStarted = s.decStarted := rfl
@[simp] theorem cqAppend_srcHeld (c : Code) : (cqAppend c s).srcHeld = s.srcHeld := rfl
@[simp] theorem cqAppend_sinkHeld (c : Code) : (cqAppend c s).sinkHeld = s.sinkHeld := rfl
@[simp] theorem cqAppend_sinkLog (c : Code) : (cqAppend c s).sinkLog = s.sinkLog := rfl
@[simp] theorem cqAppend_host (c : Code) : (cqAppend c s).host = s.host := rfl
@[simp] theorem cqAppend_epoch (c : Code) : (cqAppend c s).epoch = s.epoch := rfl

/-! ### `outAppend` -/

@[simp] theorem outAppend_input (e : Entry) : (outAppend e s).input = s.input := rfl
@[simp] theorem outAppend_rp (e : Entry) : (outAppend e s).rp = s.rp := rfl
@[simp] theorem outAppend_b0 (e : Entry) : (outAppend e s).b0 = s.b0 := rfl
@[simp] theorem outAppend_b1 (e : Entry) : (outAppend e s).b1 = s.b1 := rfl
@[simp] theorem outAppend_b2 (e : Entry) : (outAppend e s).b2 = s.b2 := rfl
@[simp] theorem outAppend_chn (e : Entry) : (outAppend e s).chn = s.chn := rfl
@[simp] theorem outAppend_cq (e : Entry) : (outAppend e s).cq = s.cq := rfl
@[simp] theorem outAppend_ci (e : Entry) : (outAppend e s).ci = s.ci := rfl
@[simp] theorem outAppend_code (e : Entry) : (outAppend e s).code = s.code := rfl
@[simp] theorem outAppend_dictRam (e : Entry) : (outAppend e s).dictRam = s.dictRam := rfl
@[simp] theorem outAppend_dictSize (e : Entry) : (outAppend e s).dictSize = s.dictSize := rfl
@[simp] theorem outAppend_prev (e : Entry) : (outAppend e s).prev = s.prev := rfl
@[simp] theorem outAppend_cur (e : Entry) : (outAppend e s).cur = s.cur := rfl
@[simp] theorem outAppend_out (e : Entry) : (outAppend e s).out = s.out ++ e.toStr := rfl
@[simp] theorem outAppend_phase (e : Entry) : (outAppend e s).phase = s.phase := rfl
@[simp] theorem outAppend_err (e : Entry) : (outAppend e s).err = s.err := rfl
@[simp] theorem outAppend_errinfo (e : Entry) : (outAppend e s).errinfo = s.errinfo := rfl
@[simp] theorem outAppend_outlen (e : Entry) : (outAppend e s).outlen = s.outlen := rfl
@[simp] theorem outAppend_nreset (e : Entry) : (outAppend e s).nreset = s.nreset := rfl
@[simp] theorem outAppend_op (e : Entry) : (outAppend e s).op = s.op := rfl
@[simp] theorem outAppend_decStarted (e : Entry) : (outAppend e s).decStarted = s.decStarted := rfl
@[simp] theorem outAppend_srcHeld (e : Entry) : (outAppend e s).srcHeld = s.srcHeld := rfl
@[simp] theorem outAppend_sinkHeld (e : Entry) : (outAppend e s).sinkHeld = s.sinkHeld := rfl
@[simp] theorem outAppend_sinkLog (e : Entry) : (outAppend e s).sinkLog = s.sinkLog := rfl
@[simp] theorem outAppend_host (e : Entry) : (outAppend e s).host = s.host := rfl
@[simp] theorem outAppend_epoch (e : Entry) : (outAppend e s).epoch = s.epoch := rfl

/-! ### `release` -/

@[simp] theorem release_input : (release s).input = s.input := rfl
@[simp] theorem release_rp : (release s).rp = s.rp := rfl
@[simp] theorem release_b0 : (release s).b0 = s.b0 := rfl
@[simp] theorem release_b1 : (release s).b1 = s.b1 := rfl
@[simp] theorem release_b2 : (release s).b2 = s.b2 := rfl
@[simp] theorem release_chn : (release s).chn = s.chn := rfl
@[simp] theorem release_cq : (release s).cq = s.cq := rfl
@[simp] theorem release_ci : (release s).ci = s.ci := rfl
@[simp] theorem release_code : (release s).code = s.code := rfl
@[simp] theorem release_dictRam : (release s).dictRam = s.dictRam := rfl
@[simp] theorem release_dictSize : (release s).dictSize = s.dictSize := rfl
@[simp] theorem release_prev : (release s).prev = s.prev := rfl
@[simp] theorem release_cur : (release s).cur = s.cur := rfl
@[simp] theorem release_out : (release s).out = s.out := rfl
@[simp] theorem release_phase : (release s).phase = s.phase := rfl
@[simp] theorem release_err : (release s).err = s.err := rfl
@[simp] theorem release_errinfo : (release s).errinfo = s.errinfo := rfl
@[simp] theorem release_outlen : (release s).outlen = s.outlen := rfl
@[simp] theorem release_nreset : (release s).nreset = s.nreset := rfl
@[simp] theorem release_op : (release s).op = s.op := rfl
@[simp] theorem release_decStarted : (release s).decStarted = s.decStarted := rfl
@[simp] theorem release_srcHeld : (release s).srcHeld = false := rfl
@[simp] theorem release_sinkHeld : (release s).sinkHeld = none := rfl
@[simp] theorem release_sinkLog : (release s).sinkLog = s.sinkLog := rfl
@[simp] theorem release_host : (release s).host = s.host := rfl
@[simp] theorem release_epoch : (release s).epoch = s.epoch := rfl

/-! ### `raiseError` -/

@[simp] theorem raiseError_input (e : Err) (info : ErrInfo) : (raiseError e info s).input = s.input := rfl
@[simp] theorem raiseError_rp (e : Err) (info : ErrInfo) : (raiseError e info s).rp = s.rp := rfl
@[simp] theorem raiseError_b0 (e : Err) (info : ErrInfo) : (raiseError e info s).b0 = s.b0 := rfl
@[simp] theorem raiseError_b1 (e : Err) (info : ErrInfo) : (raiseError e info s).b1 = s.b1 := rfl
@[simp] theorem raiseError_b2 (e : Err) (info : ErrInfo) : (raiseError e info s).b2 = s.b2 := rfl
@[simp] theorem raiseError_chn (e : Err) (info : ErrInfo) : (raiseError e info s).chn = s.chn := rfl
@[simp] theorem raiseError_cq (e : Err) (info : ErrInfo) : (raiseError e info s).cq = s.cq := rfl
@[simp] theorem raiseError_ci (e : Err) (info : ErrInfo) : (raiseError e info s).ci = s.ci := rfl
@[simp] theorem raiseError_code (e : Err) (info : ErrInfo) : (raiseError e info s).code = s.code := rfl
@[simp] theorem raiseError_dictRam (e : Err) (info : ErrInfo) : (raiseError e info s).dictRam = s.dictRam := rfl
@[simp] theorem raiseError_dictSize (e : Err) (info : ErrInfo) : (raiseError e info s).dictSize = s.dictSize := rfl
@[simp] theorem raiseError_prev (e : Err) (info : ErrInfo) : (raiseError e info s).prev = s.prev := rfl
@[simp] theorem raiseError_cur (e : Err) (info : ErrInfo) : (raiseError e info s).cur = s.cur := rfl
@[simp] theorem raiseError_out (e : Err) (info : ErrInfo) : (raiseError e info s).out = s.out := rfl
@[simp] theorem raiseError_phase (e : Err) (info : ErrInfo) : (raiseError e info s).phase = .failed := rfl
@[simp] theorem raiseError_err (e : Err) (info : ErrInfo) : (raiseError e info s).err = e := rfl
@[simp] theorem raiseError_errinfo (e : Err) (info : ErrInfo) : (raiseError e info s).errinfo = info := rfl
@[simp] theorem raiseError_outlen (e : Err) (info : ErrInfo) : (raiseError e info s).outlen = 0 := rfl
@[simp] theorem raiseError_nreset (e : Err) (info : ErrInfo) : (raiseError e info s).nreset = s.nreset := rfl
@[simp] theorem raiseError_op (e : Err) (info : ErrInfo) : (raiseError e info s).op = s.op := rfl
@[simp] theorem raiseError_decStarted (e : Err) (info : ErrInfo) : (raiseError e info s).decStarted = s.decStarted := rfl
@[simp] theorem raiseError_srcHeld (e : Err) (info : ErrInfo) : (raiseError e info s).srcHeld = false := rfl
@[simp] theorem raiseError_sinkHeld (e : Err) (info : ErrInfo) : (raiseError e info s).sinkHeld = none := rfl
@[simp] theorem raiseError_sinkLog (e : Err) (info : ErrInfo) : (raiseError e info s).sinkLog = s.sinkLog := rfl
@[simp] theorem raiseError_host (e : Err) (info : ErrInfo) : (raiseError e info s).host = s.host := rfl
@[simp] theorem raiseError_epoch (e : Err) (info : ErrInfo) : (raiseError e info s).epoch = s.epoch := rfl

/-! ### `finishRun` -/

@[simp] theorem finishRun_input (n : Nat) : (finishRun n s).input = s.input := rfl
@[simp] theorem finishRun_rp (n : Nat) : (finishRun n s).rp = s.rp := rfl
@[simp] theorem finishRun_b0 (n : Nat) : (finishRun n s).b0 = s.b0 := rfl
@[simp] theorem finishRun_b1 (n : Nat) : (finishRun n s).b1 = s.b1 := rfl
@[simp] theorem finishRun_b2 (n : Nat) : (finishRun n s).b2 = s.b2 := rfl
@[simp] theorem finishRun_chn (n : Nat) : (finishRun n s).chn = s.chn := rfl
@[simp] theorem finishRun_cq (n : Nat) : (finishRun n s).cq = s.cq := rfl
@[simp] theorem finishRun_ci (n : Nat) : (finishRun n s).ci = s.ci := rfl
@[simp] theorem finishRun_code (n : Nat) : (finishRun n s).code = s.code := rfl
@[simp] theorem finishRun_dictRam (n : Nat) : (finishRun n s).dictRam = s.dictRam := rfl
@[simp] theorem finishRun_dictSize (n : Nat) : (finishRun n s).dictSize = s.dictSize := rfl
@[simp] theorem finishRun_prev (n : Nat) : (finishRun n s).prev = s.prev := rfl
@[simp] theorem finishRun_cur (n : Nat) : (finishRun n s).cur = s.cur := rfl
@[simp] theorem finishRun_out (n : Nat) : (finishRun n s).out = s.out := rfl
@[simp] theorem finishRun_phase (n : Nat) : (finishRun n s).phase = .done := rfl
@[simp] theorem finishRun_err (n : Nat) : (finishRun n s).err = s.err := rfl
@[simp] theorem finishRun_errinfo (n : Nat) : (finishRun n s).errinfo = s.errinfo := rfl
@[simp] theorem finishRun_outlen (n : Nat) : (finishRun n s).outlen = n := rfl
@[simp] theorem finishRun_nreset (n : Nat) : (finishRun n s).nreset = s.nreset := rfl
@[simp] theorem finishRun_op (n : Nat) : (finishRun n s).op = s.op := rfl
@[simp] theorem finishRun_decStarted (n : Nat) : (finishRun n s).decStarted = s.decStarted := rfl
@[simp] theorem finishRun_srcHeld (n : Nat) : (finishRun n s).srcHeld = false := rfl
@[simp] theorem finishRun_sinkHeld (n : Nat) : (finishRun n s).sinkHeld = none := rfl
@[simp] theorem finishRun_sinkLog (n : Nat) : (finishRun n s).sinkLog = s.sinkLog := rfl
@[simp] theorem finishRun_host (n : Nat) : (finishRun n s).host = s.host := rfl
@[simp] theorem finishRun_epoch (n : Nat) : (finishRun n s).epoch = s.epoch := rfl

/-! ### `enterDecode` -/

@[simp] theorem enterDecode_input : (enterDecode s).input = s.input := rfl
@[simp] theorem enterDecode_rp : (enterDecode s).rp = s.rp := rfl
@[simp] theorem enterDecode_b0 : (enterDecode s).b0 = s.b0 := rfl
@[simp] theorem enterDecode_b1 : (enterDecode s).b1 = s.b1 := rfl
@[simp] theorem enterDecode_b2 : (enterDecode s).b2 = s.b2 := rfl
@[simp] theorem enterDecode_chn : (enterDecode s).chn = s.chn := rfl
@[simp] theorem enterDecode_cq : (enterDecode s).cq = s.cq := rfl
@[simp] theorem enterDecode_ci : (enterDecode s).ci = s.ci := rfl
@[simp] theorem enterDecode_code : (enterDecode s).code = s.code := rfl
@[simp] theorem enterDecode_dictRam : (enterDecode s).dictRam = s.dictRam := rfl
@[simp] theorem enterDecode_dictSize : (enterDecode s).dictSize = s.dictSize := rfl
@[simp] theorem enterDecode_prev : (enterDecode s).prev = s.prev := rfl
@[simp] theorem enterDecode_cur : (enterDecode s).cur = s.cur := rfl
@[simp] theorem enterDecode_out : (enterDecode s).out = s.out := rfl
@[simp] theorem enterDecode_phase : (enterDecode s).phase = .decode := rfl
@[simp] theorem enterDecode_err : (enterDecode s).err = s.err := rfl
@[simp] theorem enterDecode_errinfo : (enterDecode s).errinfo = s.errinfo := rfl
@[simp] theorem enterDecode_outlen : (enterDecode s).outlen = s.outlen := rfl
@[simp] theorem enterDecode_nreset : (enterDecode s).nreset = s.nreset := rfl
@[simp] theorem enterDecode_op : (enterDecode s).op = s.op := rfl
@[simp] theorem enterDecode_decStarted : (enterDecode s).decStarted = false := rfl
@[simp] theorem enterDecode_srcHeld : (enterDecode s).srcHeld = s.srcHeld := rfl
@[simp] theorem enterDecode_sinkHeld : (enterDecode s).sinkHeld = s.sinkHeld := rfl
@[simp] theorem enterDecode_sinkLog : (enterDecode s).sinkLog = s.sinkLog := rfl
@[simp] theorem enterDecode_host : (enterDecode s).host = s.host := rfl
@[simp] theorem enterDecode_epoch : (enterDecode s).epoch = s.epoch := rfl

/-! ### `initRun` -/

@[simp] theorem initRun_input : (initRun s).input = [] := rfl
@[simp] theorem initRun_rp : (initRun s).rp = 0 := rfl
@[simp] theorem initRun_b0 : (initRun s).b0 = none := rfl
@[simp] theorem initRun_b1 : (initRun s).b1 = none := rfl
@[simp] theorem initRun_b2 : (initRun s).b2 = none := rfl
@[simp] theorem initRun_chn : (initRun s).chn = 0 := rfl
@[simp] theorem initRun_cq : (initRun s).cq = [] := rfl
@[simp] theorem initRun_ci : (initRun s).ci = 0 := rfl
@[simp] theorem initRun_code : (initRun s).code = none := rfl
@[simp] theorem initRun_dictRam : (initRun s).dictRam = s.dictRam := rfl
@[simp] theorem initRun_dictSize : (initRun s).dictSize = 256 := rfl
@[simp] theorem initRun_prev : (initRun s).prev = none := rfl
@[simp] theorem initRun_cur : (initRun s).cur = none := rfl
@[simp] theorem initRun_out : (initRun s).out = [] := rfl
@[simp] theorem initRun_phase : (initRun s).phase = s.phase := rfl
@[simp] theorem initRun_err : (initRun s).err = .none := rfl
@[simp] theorem initRun_errinfo : (initRun s).errinfo = { cause := .none, index := 0, value := 0 } := rfl
@[simp] theorem initRun_outlen : (initRun s).outlen = 0 := rfl
@[simp] theorem initRun_nreset : (initRun s).nreset = 0 := rfl
@[simp] theorem initRun_op : (initRun s).op = none := rfl
@[simp] theorem initRun_decStarted : (initRun s).decStarted = false := rfl
@[simp] theorem initRun_srcHeld : (initRun s).srcHeld = false := rfl
@[simp] theorem initRun_sinkHeld : (initRun s).sinkHeld = none := rfl
@[simp] theorem initRun_sinkLog : (initRun s).sinkLog = s.sinkLog := rfl
@[simp] theorem initRun_host : (initRun s).host = s.host := rfl
@[simp] theorem initRun_epoch : (initRun s).epoch = s.epoch + 1 := rfl

/-! ### `hardwareReset` -/

@[simp] theorem hardwareReset_input : (hardwareReset s).input = [] := rfl
@[simp] theorem hardwareReset_rp : (hardwareReset s).rp = 0 := rfl
@[simp] theorem hardwareReset_b0 : (hardwareReset s).b0 = none := rfl
@[simp] theorem hardwareReset_b1 : (hardwareReset s).b1 = none := rfl
@[simp] theorem hardwareReset_b2 : (hardwareReset s).b2 = none := rfl
@[simp] theorem hardwareReset_chn : (hardwareReset s).chn = 0 := rfl
@[simp] theorem hardwareReset_cq : (hardwareReset s).cq = [] := rfl
@[simp] theorem hardwareReset_ci : (hardwareReset s).ci = 0 := rfl
@[simp] theorem hardwareReset_code : (hardwareReset s).code = none := rfl
@[simp] theorem hardwareReset_dictRam : (hardwareReset s).dictRam = s.dictRam := rfl
@[simp] theorem hardwareReset_dictSize : (hardwareReset s).dictSize = 256 := rfl
@[simp] theorem hardwareReset_prev : (hardwareReset s).prev = none := rfl
@[simp] theorem hardwareReset_cur : (hardwareReset s).cur = none := rfl
@[simp] theorem hardwareReset_out : (hardwareReset s).out = [] := rfl
@[simp] theorem hardwareReset_phase : (hardwareReset s).phase = .idle := rfl
@[simp] theorem hardwareReset_err : (hardwareReset s).err = .none := rfl
@[simp] theorem hardwareReset_errinfo : (hardwareReset s).errinfo = { cause := .none, index := 0, value := 0 } := rfl
@[simp] theorem hardwareReset_outlen : (hardwareReset s).outlen = 0 := rfl
@[simp] theorem hardwareReset_nreset : (hardwareReset s).nreset = 0 := rfl
@[simp] theorem hardwareReset_op : (hardwareReset s).op = none := rfl
@[simp] theorem hardwareReset_decStarted : (hardwareReset s).decStarted = false := rfl
@[simp] theorem hardwareReset_srcHeld : (hardwareReset s).srcHeld = false := rfl
@[simp] theorem hardwareReset_sinkHeld : (hardwareReset s).sinkHeld = none := rfl
@[simp] theorem hardwareReset_sinkLog : (hardwareReset s).sinkLog = s.sinkLog := rfl
@[simp] theorem hardwareReset_host : (hardwareReset s).host = s.host := rfl
@[simp] theorem hardwareReset_epoch : (hardwareReset s).epoch = s.epoch + 1 := rfl

/-! ### `startUnpacking` -/

@[simp] theorem startUnpacking_input (o : HostOp) (src : List Byte) : (startUnpacking o src s).input = src := rfl
@[simp] theorem startUnpacking_rp (o : HostOp) (src : List Byte) : (startUnpacking o src s).rp = 0 := rfl
@[simp] theorem startUnpacking_b0 (o : HostOp) (src : List Byte) : (startUnpacking o src s).b0 = none := rfl
@[simp] theorem startUnpacking_b1 (o : HostOp) (src : List Byte) : (startUnpacking o src s).b1 = none := rfl
@[simp] theorem startUnpacking_b2 (o : HostOp) (src : List Byte) : (startUnpacking o src s).b2 = none := rfl
@[simp] theorem startUnpacking_chn (o : HostOp) (src : List Byte) : (startUnpacking o src s).chn = 0 := rfl
@[simp] theorem startUnpacking_cq (o : HostOp) (src : List Byte) : (startUnpacking o src s).cq = [] := rfl
@[simp] theorem startUnpacking_ci (o : HostOp) (src : List Byte) : (startUnpacking o src s).ci = 0 := rfl
@[simp] theorem startUnpacking_code (o : HostOp) (src : List Byte) : (startUnpacking o src s).code = none := rfl
@[simp] theorem startUnpacking_dictRam (o : HostOp) (src : List Byte) : (startUnpacking o src s).dictRam = s.dictRam := rfl
@[simp] theorem startUnpacking_dictSize (o : HostOp) (src : List Byte) : (startUnpacking o src s).dictSize = 256 := rfl
@[simp] theorem startUnpacking_prev (o : HostOp) (src : List Byte) : (startUnpacking o src s).prev = none := rfl
@[simp] theorem startUnpacking_cur (o : HostOp) (src : List Byte) : (startUnpacking o src s).cur = none := rfl
@[simp] theorem startUnpacking_out (o : HostOp) (src : List Byte) : (startUnpacking o src s).out = [] := rfl
@[simp] theorem startUnpacking_phase (o : HostOp) (src : List Byte) : (startUnpacking o src s).phase = .unpack := rfl
@[simp] theorem startUnpacking_err (o : HostOp) (src : List Byte) : (startUnpacking o src s).err = .none := rfl
@[simp] theorem startUnpacking_errinfo (o : HostOp) (src : List Byte) : (startUnpacking o src s).errinfo = { cause := .none, index := 0, value := 0 } := rfl
@[simp] theorem startUnpacking_outlen (o : HostOp) (src : List Byte) : (startUnpacking o src s).outlen = 0 := rfl
@[simp] theorem startUnpacking_nreset (o : HostOp) (src : List Byte) : (startUnpacking o src s).nreset = 0 := rfl
@[simp] theorem startUnpacking_op (o : HostOp) (src : List Byte) : (startUnpacking o src s).op = some o := rfl
@[simp] theorem startUnpacking_decStarted (o : HostOp) (src : List Byte) : (startUnpacking o src s).decStarted = false := rfl
@[simp] theorem startUnpacking_srcHeld (o : HostOp) (src : List Byte) : (startUnpacking o src s).srcHeld = true := rfl
@[simp] theorem startUnpacking_sinkHeld (o : HostOp) (src : List Byte) : (startUnpacking o src s).sinkHeld = none := rfl
@[simp] theorem startUnpacking_sinkLog (o : HostOp) (src : List Byte) : (startUnpacking o src s).sinkLog = s.sinkLog := rfl
@[simp] theorem startUnpacking_host (o : HostOp) (src : List Byte) : (startUnpacking o src s).host = s.host := rfl
@[simp] theorem startUnpacking_epoch (o : HostOp) (src : List Byte) : (startUnpacking o src s).epoch = s.epoch + 1 := rfl

/-! ### `startDecoding` -/

@[simp] theorem startDecoding_input (codes : List Code) : (startDecoding codes s).input = [] := rfl
@[simp] theorem startDecoding_rp (codes : List Code) : (startDecoding codes s).rp = 0 := rfl
@[simp] theorem startDecoding_b0 (codes : List Code) : (startDecoding codes s).b0 = none := rfl
@[simp] theorem startDecoding_b1 (codes : List Code) : (startDecoding codes s).b1 = none := rfl
@[simp] theorem startDecoding_b2 (codes : List Code) : (startDecoding codes s).b2 = none := rfl
@[simp] theorem startDecoding_chn (codes : List Code) : (startDecoding codes s).chn = 0 := rfl
@[simp] theorem startDecoding_cq (codes : List Code) : (startDecoding codes s).cq = codes := rfl
@[simp] theorem startDecoding_ci (codes : List Code) : (startDecoding codes s).ci = 0 := rfl
@[simp] theorem startDecoding_code (codes : List Code) : (startDecoding codes s).code = none := rfl
@[simp] theorem startDecoding_dictRam (codes : List Code) : (startDecoding codes s).dictRam = s.dictRam := rfl
@[simp] theorem startDecoding_dictSize (codes : List Code) : (startDecoding codes s).dictSize = 256 := rfl
@[simp] theorem startDecoding_prev (codes : List Code) : (startDecoding codes s).prev = none := rfl
@[simp] theorem startDecoding_cur (codes : List Code) : (startDecoding codes s).cur = none := rfl
@[simp] theorem startDecoding_out (codes : List Code) : (startDecoding codes s).out = [] := rfl
@[simp] theorem startDecoding_phase (codes : List Code) : (startDecoding codes s).phase = .decode := rfl
@[simp] theorem startDecoding_err (codes : List Code) : (startDecoding codes s).err = .none := rfl
@[simp] theorem startDecoding_errinfo (codes : List Code) : (startDecoding codes s).errinfo = { cause := .none, index := 0, value := 0 } := rfl
@[simp] theorem startDecoding_outlen (codes : List Code) : (startDecoding codes s).outlen = 0 := rfl
@[simp] theorem startDecoding_nreset (codes : List Code) : (startDecoding codes s).nreset = 0 := rfl
@[simp] theorem startDecoding_op (codes : List Code) : (startDecoding codes s).op = some .decode := rfl
@[simp] theorem startDecoding_decStarted (codes : List Code) : (startDecoding codes s).decStarted = false := rfl
@[simp] theorem startDecoding_srcHeld (codes : List Code) : (startDecoding codes s).srcHeld = false := rfl
@[simp] theorem startDecoding_sinkHeld (codes : List Code) : (startDecoding codes s).sinkHeld = none := rfl
@[simp] theorem startDecoding_sinkLog (codes : List Code) : (startDecoding codes s).sinkLog = s.sinkLog := rfl
@[simp] theorem startDecoding_host (codes : List Code) : (startDecoding codes s).host = s.host := rfl
@[simp] theorem startDecoding_epoch (codes : List Code) : (startDecoding codes s).epoch = s.epoch + 1 := rfl

end Updates

end Machine

end Sys2Proof
end

