-- ==== Sys2Proof/Laws/Memory.lean ====
section
/-! SUPPORT. The laws of the dictionary memory: a read after a write, and that every operation keeps the canonical
form. -/

namespace Sys2Proof.Machine

/-- A read after a write: the location written gives the entry written, every other one what it held. -/
theorem ramLookup_ramInsert (j k : Nat) (e : Entry) (ram : List DictCell) :
    ramLookup j (ramInsert k e ram) = if j = k then some e else ramLookup j ram := by
  induction ram with
  | nil => simp [ramInsert, ramLookup, eq_comm]
  | cons cell rest ih =>
    obtain ⟨k', e'⟩ := cell
    by_cases hlt : k' < k
    · simp only [ramInsert, hlt, if_true, ramLookup, ih]
      by_cases hj : k' = j
      · subst hj
        simp [Nat.ne_of_lt hlt]
      · simp [hj]
    · by_cases heq : k' = k
      · subst heq
        simp only [ramInsert, hlt, if_false, if_true, ramLookup, eq_comm (a := j)]
        split <;> rfl
      · simp only [ramInsert, hlt, heq, if_false, ramLookup, eq_comm (a := j)]

/-- The canonical form, read from its first location on. -/
theorem Memory.wf_cons (k : Nat) (e : Entry) (ram : List DictCell) :
    Memory.wf ((k, e) :: ram) = true ↔
      (256 ≤ k ∧ k < 4096) ∧ (∀ cell ∈ ram.head?, k < cell.1) ∧ Memory.wf ram = true := by
  cases ram with
  | nil => simp [Memory.wf]
  | cons cell rest =>
    obtain ⟨k', e'⟩ := cell
    have bound : Memory.wf ((k', e') :: rest) = true → k' < 4096 := by
      cases rest with
      | nil => simp [Memory.wf]
      | cons cell2 rest2 =>
        intro h
        induction rest2 generalizing k' e' cell2 with
        | nil => 
          simp [Memory.wf] at h
          omega
        | cons cell3 rest3 ih =>
          simp only [Memory.wf, Bool.and_eq_true, decide_eq_true_eq, Config.base_eq] at h
          have := ih cell2.1 cell2.2 cell3 (by simpa [Memory.wf] using h.2)
          omega
    simp only [Memory.wf, Bool.and_eq_true, decide_eq_true_eq, List.head?_cons, Option.mem_some_iff, forall_eq', Config.base_eq]
    constructor
    · rintro ⟨⟨h1, h2⟩, h3⟩
      exact ⟨⟨h1, Nat.lt_trans h2 (bound h3)⟩, h2, h3⟩
    · rintro ⟨⟨h1, -⟩, h2, h3⟩
      exact ⟨⟨h1, h2⟩, h3⟩

theorem head_ramInsert {k0 k : Nat} (e : Entry) {ram : List DictCell} (hk : k0 < k)
    (h : ∀ cell ∈ ram.head?, k0 < cell.1) : ∀ cell ∈ (ramInsert k e ram).head?, k0 < cell.1 := by
  cases ram with
  | nil => simpa [ramInsert] using hk
  | cons cell rest =>
    obtain ⟨k', e'⟩ := cell
    have h' : k0 < k' := by simpa using h
    simp only [ramInsert]
    split
    · simpa using h'
    · split <;> simpa using hk

/-- Writing a location of the RAM keeps the canonical form. -/
theorem Memory.wf_ramInsert {k : Nat} (e : Entry) {ram : List DictCell} (hk : 256 ≤ k ∧ k < 4096)
    (h : Memory.wf ram = true) : Memory.wf (ramInsert k e ram) = true := by
  induction ram with
  | nil => simpa [ramInsert, Memory.wf] using hk
  | cons cell rest ih =>
    obtain ⟨k', e'⟩ := cell
    have hc := (Memory.wf_cons k' e' rest).1 h
    simp only [ramInsert]
    split
    · rename_i hlt
      exact (Memory.wf_cons _ _ _).2 ⟨hc.1, head_ramInsert e hlt hc.2.1, ih hc.2.2⟩
    · split
      · rename_i hge heq
        subst heq
        exact (Memory.wf_cons _ _ _).2 ⟨hc.1, hc.2⟩
      · rename_i hge hne
        refine (Memory.wf_cons _ _ _).2 ⟨hk, ?_, h⟩
        simp only [List.head?_cons, Option.mem_some_iff, forall_eq']
        omega

theorem Memory.wf_reset : Memory.wf State.reset.dictRam = true := rfl

/-- `DictWrite` inside the RAM. -/
theorem dictWrite_eq_ok {k : Nat} (e : Entry) (s : State) (hk : 256 ≤ k ∧ k < 4096) :
    dictWrite k e s = .ok { s with dictRam := ramInsert k e s.dictRam } := by
  simp [dictWrite, hk.1, hk.2]

/-- Everything `DictWrite` can do when it answers. -/
theorem dictWrite_cases {k : Nat} {e : Entry} {s t : State} (h : dictWrite k e s = .ok t) :
    (256 ≤ k ∧ k < 4096) ∧ t = { s with dictRam := ramInsert k e s.dictRam } := by
  unfold dictWrite at h
  split at h
  · rename_i hk
    exact ⟨hk, (Except.ok.inj h).symm⟩
  · cases h

/-- `DictRead` of a base code. -/
theorem dictRead_base {k : Nat} (s : State) (hk : k < 256) : dictRead k s = .ok (romEntry k) := by
  simp [dictRead, hk]

/-- `DictRead` of a symbol's own code. -/
@[simp] theorem dictRead_sym (sym : Sym) (s : State) : dictRead sym.toNat s = .ok (Entry.single sym) := by
  rw [dictRead_base s sym.isLt]
  simp [romEntry]

/-- `DictRead` of a valid key of the RAM that has been written. -/
theorem dictRead_ram {k : Nat} {s : State} {e : Entry} (hk : 256 ≤ k) (hv : k < s.dictSize)
    (he : ramLookup k s.dictRam = some e) : dictRead k s = .ok e := by
  simp [dictRead, Nat.not_lt.2 hk, validKey, hv, he]

/-- Everything `DictRead` can do when it answers. -/
theorem dictRead_cases {k : Nat} {s : State} {e : Entry} (h : dictRead k s = .ok e) :
    (k < 256 ∧ e = romEntry k) ∨ (256 ≤ k ∧ k < s.dictSize ∧ ramLookup k s.dictRam = some e) := by
  unfold dictRead at h
  split at h
  · rename_i hk
    exact .inl ⟨hk, (Except.ok.inj h).symm⟩
  · rename_i hk
    split at h
    · rename_i hv
      split at h
      · rename_i e' he
        cases h
        exact .inr ⟨Nat.not_lt.1 hk, by simpa [validKey] using hv, he⟩
      · cases h
    · cases h

end Sys2Proof.Machine
end

