-- ==== Sys2Proof/Laws/Ops.lean ====
section
/-! SUPPORT. What each shared operation can do, said once: the strings, the tail steps, the meanings. -/

namespace Sys2Proof

@[simp] theorem Entry.length_single (s : Sym) : (Entry.single s).length = 1 := rfl

@[simp] theorem Entry.length_snoc (e : Entry) (s : Sym) : (e.snoc s).length = e.length + 1 := by
  simp [Entry.snoc, Entry.length]

@[simp] theorem Entry.length_toStr (e : Entry) : e.toStr.length = e.length := by
  simp [Entry.toStr, Entry.length]

@[simp] theorem Entry.toStr_single (s : Sym) : (Entry.single s).toStr = [s] := rfl

@[simp] theorem Entry.toStr_snoc (e : Entry) (s : Sym) : (e.snoc s).toStr = e.toStr ++ [s] := rfl

@[simp] theorem Entry.first_single (s : Sym) : (Entry.single s).first = s := rfl

@[simp] theorem Entry.first_snoc (e : Entry) (s : Sym) : (e.snoc s).first = e.first := rfl

theorem Entry.one_le_length (e : Entry) : 1 ≤ e.length := Nat.le_add_left 1 _

namespace Machine

/-- `dict_size` after T2 (R141). -/
def nextSize (d : Nat) : Nat :=
  if d = 4095 then 256 else d + 1

/-- `nreset` after T2 (R141). -/
def nextResets (d n : Nat) : Nat :=
  if d = 4095 then n + 1 else n

/-- The state after a step that decodes to `e`, with previous entry `p` (R140 to R143). -/
def afterStep (p e : Entry) (s : State) : State :=
  { s with
    cur := some e
    dictRam := ramInsert s.dictSize (p.snoc e.first) s.dictRam
    dictSize := nextSize s.dictSize
    nreset := nextResets s.dictSize s.nreset
    out := s.out ++ e.toStr
    prev := some e }

theorem tailCount_eq (s : State) :
    tailCount s = { s with dictSize := nextSize s.dictSize, nreset := nextResets s.dictSize s.nreset } := by
  by_cases h : s.dictSize = 4095
  · simp [tailCount, reachesCap, nextSize, nextResets, h]
  · have h' : s.dictSize + 1 ≠ 4096 := by omega
    simp [tailCount, reachesCap, nextSize, nextResets, h]

/-- A read of `prev` that has been written. -/
theorem readPrev_eq {p : Entry} {s : State} (hp : s.prev = some p) : readPrev s = p := by
  simp [readPrev, hp]

/-- The tail steps complete whenever the counter is in its range. -/
theorem completeStep_eq_ok (e : Entry) {s : State} (hd : 256 ≤ s.dictSize ∧ s.dictSize ≤ 4095) :
    completeStep e s = .ok (afterStep (readPrev s) e s) := by
  have hk : 256 ≤ s.dictSize ∧ s.dictSize < 4096 := ⟨hd.1, by omega⟩
  simp [completeStep, tailInsert, readPrev, dictWrite_eq_ok, hk, bind, Except.bind, tailCount_eq, tailAppend, tailKeep,
    afterStep, outAppend]

/-- Everything the tail steps can do when they answer. -/
theorem completeStep_cases {e : Entry} {s t : State} (h : completeStep e s = .ok t) :
    (256 ≤ s.dictSize ∧ s.dictSize ≤ 4095) ∧ t = afterStep (readPrev s) e s := by
  by_cases hd : 256 ≤ s.dictSize ∧ s.dictSize ≤ 4095
  · rw [completeStep_eq_ok e hd] at h
    exact ⟨hd, (Except.ok.inj h).symm⟩
  · have hk : ¬(256 ≤ s.dictSize ∧ s.dictSize < 4096) := by omega
    simp [completeStep, tailInsert, dictWrite, hk, bind, Except.bind] at h

@[simp] theorem answer_eq_next {r : Except Fault State} {t : State} :
    answer r = .next t ↔ r = .ok t := by
  cases r <;> simp [answer]

/-! ### The meanings, one equation each -/

theorem exec_dfirst (sym : Sym) (s : State) :
    exec (.dfirst sym) s = .next { s with prev := some (Entry.single sym), out := s.out ++ [sym] } := by
  simp [exec, execDfirst, bind, Except.bind, outAppend]

theorem exec_dlit (sym : Sym) {s : State} (hd : 256 ≤ s.dictSize ∧ s.dictSize ≤ 4095) :
    exec (.dlit sym) s = .next (afterStep (readPrev s) (Entry.single sym) s) := by
  simp [exec, execDlit, bind, Except.bind, completeStep_eq_ok _ hd]

theorem exec_dref {e : Entry} {c : Code} {s : State} (hd : 256 ≤ s.dictSize ∧ s.dictSize ≤ 4095)
    (hc : 256 ≤ c.toNat) (hv : c.toNat < s.dictSize) (he : ramLookup c.toNat s.dictRam = some e) :
    exec (.dref c) s = .next (afterStep (readPrev s) e s) := by
  simp [exec, execDref, bind, Except.bind, dictRead_ram hc hv he, completeStep_eq_ok _ hd]

theorem exec_dnew (c : Code) {s : State} (hd : 256 ≤ s.dictSize ∧ s.dictSize ≤ 4095) :
    exec (.dnew c) s = .next (afterStep (readPrev s) ((readPrev s).snoc (readPrev s).first) s) := by
  simp [exec, execDnew, completeStep_eq_ok _ hd]

/-- The entry a code of the three inserting operations decodes to, where the operation completes. -/
theorem exec_inserting_cases {i : Instr} {s t : State}
    (hi : (∃ sym, i = .dlit sym) ∨ (∃ c, i = .dref c) ∨ (∃ c, i = .dnew c)) (h : exec i s = .next t) :
    ∃ e, (256 ≤ s.dictSize ∧ s.dictSize ≤ 4095) ∧ t = afterStep (readPrev s) e s
      ∧ ((∃ sym, i = .dlit sym ∧ e = Entry.single sym)
        ∨ (∃ c, i = .dref c ∧ dictRead c.toNat s = .ok e)
        ∨ (∃ c, i = .dnew c ∧ e = (readPrev s).snoc (readPrev s).first)) := by
  rcases hi with ⟨sym, rfl⟩ | ⟨c, rfl⟩ | ⟨c, rfl⟩
  · simp only [exec, execDlit, dictRead_sym, bind, Except.bind, answer_eq_next] at h
    obtain ⟨hd, rfl⟩ := completeStep_cases h
    exact ⟨_, hd, rfl, .inl ⟨sym, rfl, rfl⟩⟩
  · simp only [exec, execDref, bind, Except.bind, answer_eq_next] at h
    cases hr : dictRead c.toNat s with
    | error f => simp [hr] at h
    | ok e =>
      simp only [hr] at h
      obtain ⟨hd, rfl⟩ := completeStep_cases h
      exact ⟨e, hd, rfl, .inr (.inl ⟨c, rfl, hr⟩)⟩
  · simp only [exec, execDnew, answer_eq_next] at h
    obtain ⟨hd, rfl⟩ := completeStep_cases h
    exact ⟨_, hd, rfl, .inr (.inr ⟨c, rfl, rfl⟩)⟩

/-- Starting an operation: everything a start can do when it answers. -/
theorem beginRun_cases {start : State → State} {s t : State} (h : beginRun start s = .next t) :
    s.running = false ∧ t = start s := by
  unfold beginRun at h
  split at h
  · cases h
  · rename_i hr
    exact ⟨by simpa using hr, (Host.Outcome.next.inj h).symm⟩

theorem beginRun_eq_next (start : State → State) {s : State} (h : s.running = false) :
    beginRun start s = .next (start s) := by
  simp [beginRun, h]

end Machine

end Sys2Proof
end

