-- ==== Sys2Proof/Laws/Step.lean ====
section
/-! SUPPORT. What a fetch and a step can do, said once: equations for each place a run can stand, and one inversion
lemma for each of `fetchRun` and `step`. -/

namespace Sys2Proof.Machine

theorem running_iff (s : State) : s.running = true ↔ s.phase = .unpack ∨ s.phase = .decode := by
  simp [State.running]

/-! ### The fetch of the unpack loop -/

/-- The bytes the next `SrcRead(3)` returns. -/
def nextChunk (s : State) : List Byte :=
  (s.input.drop s.rp).take 3

theorem fetchChunk_eq (s : State) :
    fetchChunk s = { s with
      rp := s.rp + (nextChunk s).length, chn := (nextChunk s).length
      b0 := (nextChunk s)[0]?, b1 := (nextChunk s)[1]?, b2 := (nextChunk s)[2]? } := rfl

@[simp] theorem fetchChunk_input (s : State) : (fetchChunk s).input = s.input := rfl
@[simp] theorem fetchChunk_cq (s : State) : (fetchChunk s).cq = s.cq := rfl
@[simp] theorem fetchChunk_ci (s : State) : (fetchChunk s).ci = s.ci := rfl
@[simp] theorem fetchChunk_code (s : State) : (fetchChunk s).code = s.code := rfl
@[simp] theorem fetchChunk_dictRam (s : State) : (fetchChunk s).dictRam = s.dictRam := rfl
@[simp] theorem fetchChunk_dictSize (s : State) : (fetchChunk s).dictSize = s.dictSize := rfl
@[simp] theorem fetchChunk_prev (s : State) : (fetchChunk s).prev = s.prev := rfl
@[simp] theorem fetchChunk_cur (s : State) : (fetchChunk s).cur = s.cur := rfl
@[simp] theorem fetchChunk_out (s : State) : (fetchChunk s).out = s.out := rfl
@[simp] theorem fetchChunk_phase (s : State) : (fetchChunk s).phase = s.phase := rfl
@[simp] theorem fetchChunk_err (s : State) : (fetchChunk s).err = s.err := rfl
@[simp] theorem fetchChunk_errinfo (s : State) : (fetchChunk s).errinfo = s.errinfo := rfl
@[simp] theorem fetchChunk_outlen (s : State) : (fetchChunk s).outlen = s.outlen := rfl
@[simp] theorem fetchChunk_nreset (s : State) : (fetchChunk s).nreset = s.nreset := rfl
@[simp] theorem fetchChunk_op (s : State) : (fetchChunk s).op = s.op := rfl
@[simp] theorem fetchChunk_decStarted (s : State) : (fetchChunk s).decStarted = s.decStarted := rfl
@[simp] theorem fetchChunk_srcHeld (s : State) : (fetchChunk s).srcHeld = s.srcHeld := rfl
@[simp] theorem fetchChunk_sinkHeld (s : State) : (fetchChunk s).sinkHeld = s.sinkHeld := rfl
@[simp] theorem fetchChunk_sinkLog (s : State) : (fetchChunk s).sinkLog = s.sinkLog := rfl
@[simp] theorem fetchChunk_host (s : State) : (fetchChunk s).host = s.host := rfl
@[simp] theorem fetchChunk_epoch (s : State) : (fetchChunk s).epoch = s.epoch := rfl
@[simp] theorem fetchChunk_rp (s : State) : (fetchChunk s).rp = s.rp + (nextChunk s).length := rfl
@[simp] theorem fetchChunk_chn (s : State) : (fetchChunk s).chn = (nextChunk s).length := rfl
@[simp] theorem fetchChunk_b0 (s : State) : (fetchChunk s).b0 = (nextChunk s)[0]? := rfl
@[simp] theorem fetchChunk_b1 (s : State) : (fetchChunk s).b1 = (nextChunk s)[1]? := rfl
@[simp] theorem fetchChunk_b2 (s : State) : (fetchChunk s).b2 = (nextChunk s)[2]? := rfl

theorem nextChunk_length (s : State) : (nextChunk s).length ≤ 3 := by
  simp [nextChunk]

/-- The first `chn` latches hold the chunk just read, in order, and the others hold none (R22). -/
theorem latches_fetchChunk (s : State) :
    [(fetchChunk s).b0, (fetchChunk s).b1, (fetchChunk s).b2]
      = (nextChunk s).map some ++ List.replicate (3 - (fetchChunk s).chn) none := by
  have h := nextChunk_length s
  simp only [fetchChunk_b0, fetchChunk_b1, fetchChunk_b2, fetchChunk_chn]
  generalize nextChunk s = l at h ⊢
  match l, h with
  | [], _ => rfl
  | [_], _ => rfl
  | [_, _], _ => rfl
  | [_, _, _], _ => rfl
  | _ :: _ :: _ :: _ :: _, h => simp only [List.length_cons] at h; omega

/-- A chunk of at most three bytes is an operation. -/
theorem decodeChunk_ok {l : List Byte} (h : l.length ≤ 3) : ∃ i, decodeChunk l = .ok i := by
  match l, h with
  | [], _ => exact ⟨_, rfl⟩
  | [_], _ => exact ⟨_, rfl⟩
  | [_, _], _ => exact ⟨_, rfl⟩
  | [_, _, _], _ => exact ⟨_, rfl⟩
  | _ :: _ :: _ :: _ :: _, h => simp only [List.length_cons] at h; omega

theorem fetchUnpack_eq (s : State) {i : Instr} (h : decodeChunk (nextChunk s) = .ok i) :
    fetchUnpack s = .run i (fetchChunk s) := by
  have h' : decode .unpacking (.chunk (srcRead Config.groupBytes s).1) = .ok i := h
  simp [fetchUnpack, selectOp, h']

/-! ### The fetch of the decode loop -/

/-- The state that has consumed the code `c`. -/
def afterCode (c : Code) (s : State) : State :=
  { s with ci := s.ci + 1, code := some c }

theorem fetchDecode_code {s : State} {c : Code} (hs : s.decStarted = true) (hc : s.cq[s.ci]? = some c) :
    fetchDecode s = .run (classify s.ci s.dictSize c) (afterCode c s) := by
  simp [fetchDecode, hs, cqNext, hc, selectOp, decode, afterCode]

theorem fetchDecode_start {s : State} (hs : s.decStarted = false) :
    fetchDecode s = .run (if s.cq.length = 0 then .dempty else .dinit) s := by
  simp [fetchDecode, hs, selectOp, decode]

theorem fetchDecode_end {s : State} (hs : s.decStarted = true) (he : s.ci = s.cq.length) (hn : 0 < s.cq.length) :
    fetchDecode s = .run .dend s := by
  simp [fetchDecode, hs, cqNext, he, hn, selectOp, decode]

/-- Everything the fetch of a run can give: where the run stands, the operation, and the state that has consumed its
words. -/
theorem fetchRun_cases {s s' : State} {i : Instr} (h : fetchRun s = .run i s') :
    (s.phase = .unpack ∧ decodeChunk (nextChunk s) = .ok i ∧ s' = fetchChunk s)
    ∨ (s.phase = .decode ∧ s.decStarted = false ∧ i = (if s.cq.length = 0 then .dempty else .dinit) ∧ s' = s)
    ∨ (∃ c, s.phase = .decode ∧ s.decStarted = true ∧ s.cq[s.ci]? = some c ∧ i = classify s.ci s.dictSize c
        ∧ s' = afterCode c s)
    ∨ (s.phase = .decode ∧ s.decStarted = true ∧ s.ci = s.cq.length ∧ 0 < s.cq.length ∧ i = .dend ∧ s' = s) := by
  cases hp : s.phase with
  | idle => simp [fetchRun, hp] at h
  | done => simp [fetchRun, hp] at h
  | failed => simp [fetchRun, hp] at h
  | unpack =>
    obtain ⟨j, hj⟩ := decodeChunk_ok (nextChunk_length s)
    simp only [fetchRun, hp, fetchUnpack_eq s hj, Fetched.run.injEq] at h
    exact .inl ⟨rfl, h.1 ▸ hj, h.2.symm⟩
  | decode =>
    simp only [fetchRun, hp] at h
    cases hs : s.decStarted with
    | false =>
      rw [fetchDecode_start hs, Fetched.run.injEq] at h
      exact .inr (.inl ⟨rfl, rfl, h.1.symm, h.2.symm⟩)
    | true =>
      cases hc : s.cq[s.ci]? with
      | some c =>
        rw [fetchDecode_code hs hc, Fetched.run.injEq] at h
        exact .inr (.inr (.inl ⟨c, rfl, rfl, rfl, h.1.symm, h.2.symm⟩))
      | none =>
        by_cases he : s.ci = s.cq.length ∧ 0 < s.cq.length
        · rw [fetchDecode_end hs he.1 he.2, Fetched.run.injEq] at h
          exact .inr (.inr (.inr ⟨rfl, rfl, he.1, he.2, h.1.symm, h.2.symm⟩))
        · simp [fetchDecode, hs, cqNext, hc, he] at h

/-! ### One step -/

/-- A quiet step of a run is the operation its fetch gives. -/
theorem step_of_fetchRun {s s' : State} {i : Instr} (hq : s.quiet = true) (hr : s.running = true)
    (h : fetchRun s = .run i s') : step s = exec i s' := by
  unfold State.quiet at hq
  unfold step fetch
  split at hq
  · simp_all
  · simp_all
  · cases hq
  · cases hq

theorem step_unpack {s : State} {i : Instr} (hq : s.quiet = true) (hp : s.phase = .unpack)
    (h : decodeChunk (nextChunk s) = .ok i) : step s = exec i (fetchChunk s) :=
  step_of_fetchRun hq (by simp [running_iff, hp]) (by simp [fetchRun, hp, fetchUnpack_eq s h])

theorem step_code {s : State} {c : Code} (hq : s.quiet = true) (hp : s.phase = .decode)
    (hs : s.decStarted = true) (hc : s.cq[s.ci]? = some c) :
    step s = exec (classify s.ci s.dictSize c) (afterCode c s) :=
  step_of_fetchRun hq (by simp [running_iff, hp]) (by simp [fetchRun, hp, fetchDecode_code hs hc])

theorem step_start {s : State} (hq : s.quiet = true) (hp : s.phase = .decode) (hs : s.decStarted = false) :
    step s = exec (if s.cq.length = 0 then .dempty else .dinit) s :=
  step_of_fetchRun hq (by simp [running_iff, hp]) (by simp [fetchRun, hp, fetchDecode_start hs])

theorem step_end {s : State} (hq : s.quiet = true) (hp : s.phase = .decode) (hs : s.decStarted = true)
    (he : s.ci = s.cq.length) (hn : 0 < s.cq.length) : step s = exec .dend s :=
  step_of_fetchRun hq (by simp [running_iff, hp]) (by simp [fetchRun, hp, fetchDecode_end hs he hn])

theorem step_command {s : State} {c : HostCmd} {rest : List HostEvent} (hr : s.running = false)
    (hh : s.host = .start c :: rest) : step s = exec c.toInstr { s with host := rest } := by
  simp [step, fetch, hh, hr, selectOp, decode]

/-- A fetch that waits does so with no run in progress, and changes nothing. -/
theorem fetchRun_wait {s s' : State} (h : fetchRun s = .wait s') : s.running = false ∧ s' = s := by
  unfold fetchRun at h
  split at h
  · unfold fetchUnpack selectOp at h
    split at h <;> cases h
  · unfold fetchDecode selectOp at h
    repeat' split at h
    all_goals cases h
  all_goals
    rename_i hp
    exact ⟨by simp [State.running, hp], (Fetched.wait.inj h).symm⟩

theorem fetchRun_no_reset {s s' : State} : fetchRun s ≠ .reset s' := by
  intro h
  unfold fetchRun at h
  split at h
  · unfold fetchUnpack selectOp at h
    repeat' split at h
    all_goals cases h
  · unfold fetchDecode selectOp at h
    repeat' split at h
    all_goals cases h
  all_goals cases h

/-- Everything a step can do when it answers: with the host's events advanced to `h`, it waits, resets, starts an
operation, or performs the operation of the run. -/
theorem step_cases {s t : State} (hst : step s = .next t) :
    ∃ h, (s.running = false ∧ t = { s with host := h })
      ∨ t = hardwareReset { s with host := h }
      ∨ (∃ c : HostCmd, s.running = false ∧ exec c.toInstr { s with host := h } = .next t)
      ∨ (∃ i s', s.running = true ∧ fetchRun { s with host := h } = .run i s' ∧ exec i s' = .next t) := by
  have run : ∀ h, (match fetchRun { s with host := h } with
      | .wait s' => Host.Outcome.next s'
      | .reset s' => .next (hardwareReset s')
      | .run i s' => exec i s'
      | .stuck f => .fault f) = .next t →
      (s.running = false ∧ t = { s with host := h })
      ∨ (∃ i s', s.running = true ∧ fetchRun { s with host := h } = .run i s' ∧ exec i s' = .next t) := by
    intro h hm
    cases hf : fetchRun { s with host := h } with
    | wait s' =>
      obtain ⟨h1, rfl⟩ := fetchRun_wait hf
      simp only [hf, Host.Outcome.next.injEq] at hm
      exact .inl ⟨h1, hm.symm⟩
    | reset s' => exact absurd hf fetchRun_no_reset
    | run i s' =>
      simp only [hf] at hm
      refine .inr ⟨i, s', ?_, rfl, hm⟩
      have : (s.phase = .unpack) ∨ (s.phase = .decode) := by
        rcases fetchRun_cases hf with h | h | ⟨c, h⟩ | h
        · exact .inl h.1
        · exact .inr h.1
        · exact .inr h.1
        · exact .inr h.1
      exact (running_iff s).2 this
    | stuck f => simp [hf] at hm
  unfold step fetch at hst
  cases hh : s.host with
  | nil =>
    have e : s = { s with host := [] } := by rw [← hh]
    refine ⟨[], ?_⟩
    simp only [hh] at hst
    rw [e] at hst
    rcases run [] hst with h | h
    · exact .inl h
    · exact .inr (.inr (.inr h))
  | cons ev rest =>
    cases ev with
    | reset =>
      simp only [hh, Host.Outcome.next.injEq] at hst
      exact ⟨rest, .inr (.inl hst.symm)⟩
    | pass =>
      simp only [hh] at hst
      refine ⟨rest, ?_⟩
      rcases run rest hst with h | h
      · exact .inl h
      · exact .inr (.inr (.inr h))
    | start c =>
      simp only [hh] at hst
      cases hr : s.running with
      | true =>
        have e : s = { s with host := .start c :: rest } := by rw [← hh]
        refine ⟨.start c :: rest, ?_⟩
        simp only [hr, if_true] at hst
        rw [e] at hst
        rcases run _ hst with h | h
        · rw [hr] at h
          exact absurd h.1 (by simp)
        · exact .inr (.inr (.inr (by simpa [hr] using h)))
      | false =>
        refine ⟨rest, .inr (.inr (.inl ⟨c, rfl, ?_⟩))⟩
        simpa [hr, selectOp, decode] using hst

/-! ### What a step of a run does -/

/-- Why a string is what a code after the first decodes to (R136 to R138). -/
inductive DecodesTo (s : State) (p : Entry) (c : Code) : Entry → Prop
  /-- a base code, its symbol (R136) -/
  | literal (h : c.toNat < 256) : DecodesTo s p c (Entry.single (c.setWidth 8))
  /-- a valid key of the RAM, the entry it holds (R137) -/
  | reference (e : Entry) (h : 256 ≤ c.toNat) (hv : c.toNat < s.dictSize)
      (he : ramLookup c.toNat s.dictRam = some e) : DecodesTo s p c e
  /-- the new code (R138) -/
  | new (h : 256 ≤ c.toNat) (hn : c.toNat = s.dictSize) : DecodesTo s p c (p.snoc p.first)

/-- What one step of the unpack loop can make of the state (R110 to R114). -/
inductive UnpackStep (s : State) : State → Prop
  | group (b0 b1 b2 : Byte) (h : nextChunk s = [b0, b1, b2]) :
      UnpackStep s { fetchChunk s with cq := s.cq ++ [assembleFirst b0 b1, assembleSecond b1 b2] }
  | tail (b0 b1 : Byte) (h : nextChunk s = [b0, b1]) :
      UnpackStep s { fetchChunk s with cq := s.cq ++ [assembleTail b0 b1] }
  | dangling (b0 : Byte) (h : nextChunk s = [b0]) :
      UnpackStep s (raiseError .invalidData
        { cause := .danglingByte, index := (fetchChunk s).rp - 1, value := b0.toNat } (fetchChunk s))
  | finish (h : nextChunk s = []) (ho : s.op = some .unpack) :
      UnpackStep s (finishRun s.cq.length (fetchChunk s))
  | handOver (h : nextChunk s = []) (ho : s.op ≠ some .unpack) :
      UnpackStep s (enterDecode (fetchChunk s))

/-- What one step of the decode loop can make of the state (R130 to R145). -/
inductive DecodeStep (s : State) : State → Prop
  | empty (hs : s.decStarted = false) (h : s.cq.length = 0) :
      DecodeStep s (raiseError .invalidData { cause := .emptySequence, index := 0, value := 0 } s)
  | init (hs : s.decStarted = false) (h : 0 < s.cq.length) :
      DecodeStep s { s with dictSize := 256, decStarted := true }
  | first (c : Code) (hs : s.decStarted = true) (hc : s.cq[s.ci]? = some c) (h0 : s.ci = 0) (h : c.toNat < 256) :
      DecodeStep s { afterCode c s with prev := some (Entry.single (c.setWidth 8)), out := s.out ++ [c.setWidth 8] }
  | firstBad (c : Code) (hs : s.decStarted = true) (hc : s.cq[s.ci]? = some c) (h0 : s.ci = 0) (h : 256 ≤ c.toNat) :
      DecodeStep s (raiseError .unknownCode { cause := .firstCode, index := 0, value := c.toNat } (afterCode c s))
  | insert (c : Code) (e : Entry) (hs : s.decStarted = true) (hc : s.cq[s.ci]? = some c) (h0 : 0 < s.ci)
      (hd : 256 ≤ s.dictSize ∧ s.dictSize ≤ 4095) (he : DecodesTo s (readPrev s) c e) :
      DecodeStep s (afterStep (readPrev s) e (afterCode c s))
  | bad (c : Code) (hs : s.decStarted = true) (hc : s.cq[s.ci]? = some c) (h0 : 0 < s.ci) (h : 256 ≤ c.toNat)
      (h' : s.dictSize < c.toNat) :
      DecodeStep s (raiseError .unknownCode { cause := .codeBeyond, index := s.ci, value := c.toNat } (afterCode c s))
  | finish (hs : s.decStarted = true) (he : s.ci = s.cq.length) (hn : 0 < s.cq.length) :
      DecodeStep s (finishRun s.out.length (sinkWrite s))

theorem exec_unpackStep {s t : State} {i : Instr} (hi : decodeChunk (nextChunk s) = .ok i)
    (h : exec i (fetchChunk s) = .next t) : UnpackStep s t := by
  generalize hn : nextChunk s = l at hi
  match l, hi with
  | [], hi =>
    cases hi
    simp only [exec, execUnpk0] at h
    split at h
    · rename_i ho
      cases h
      exact .finish hn ho
    · rename_i ho
      cases h
      exact .handOver hn ho
  | [b0], hi =>
    cases hi
    cases h
    exact .dangling b0 hn
  | [b0, b1], hi =>
    cases hi
    cases h
    exact .tail b0 b1 hn
  | [b0, b1, b2], hi =>
    cases hi
    simp only [exec, execUnpk3, Host.Outcome.next.injEq] at h
    subst h
    have e : cqAppend (assembleSecond b1 b2) (cqAppend (assembleFirst b0 b1) (fetchChunk s))
        = { fetchChunk s with cq := s.cq ++ [assembleFirst b0 b1, assembleSecond b1 b2] } := by
      simp [cqAppend]
    exact e ▸ .group b0 b1 b2 hn
  | _ :: _ :: _ :: _ :: _, hi => cases hi

theorem exec_decodeStep {s t : State} {c : Code} (hs : s.decStarted = true) (hc : s.cq[s.ci]? = some c)
    (h : exec (classify s.ci s.dictSize c) (afterCode c s) = .next t) : DecodeStep s t := by
  unfold classify at h
  split_ifs at h with h0 hb hb hk hn
  · rw [exec_dfirst] at h
    cases h
    exact .first c hs hc h0 hb
  · cases h
    exact .firstBad c hs hc h0 (Nat.not_lt.1 hb)
  · obtain ⟨e, hd, rfl, he⟩ := exec_inserting_cases (.inl ⟨_, rfl⟩) h
    rcases he with ⟨_, h1, rfl⟩ | ⟨_, h1, _⟩ | ⟨_, h1, _⟩ <;> cases h1
    exact .insert c _ hs hc (Nat.pos_of_ne_zero h0) hd (.literal hb)
  · obtain ⟨e, hd, rfl, he⟩ := exec_inserting_cases (.inr (.inl ⟨_, rfl⟩)) h
    rcases he with ⟨_, h1, rfl⟩ | ⟨_, h1, hr⟩ | ⟨_, h1, _⟩ <;> cases h1
    rcases dictRead_cases hr with ⟨h1, -⟩ | ⟨h1, h2, h3⟩
    · exact absurd h1 hb
    · exact .insert c e hs hc (Nat.pos_of_ne_zero h0) hd (.reference e h1 h2 h3)
  · obtain ⟨e, hd, rfl, he⟩ := exec_inserting_cases (.inr (.inr ⟨_, rfl⟩)) h
    rcases he with ⟨_, h1, rfl⟩ | ⟨_, h1, _⟩ | ⟨_, h1, rfl⟩ <;> cases h1
    exact .insert c _ hs hc (Nat.pos_of_ne_zero h0) hd (.new (Nat.not_lt.1 hb) hn)
  · cases h
    have h1 : ¬c.toNat < s.dictSize := hk
    have h2 : c.toNat ≠ s.dictSize := hn
    exact .bad c hs hc (Nat.pos_of_ne_zero h0) (Nat.not_lt.1 hb) (by omega)

/-- Everything a step of a run can do when it answers. -/
theorem runStep_cases {s s' t : State} {i : Instr} (hf : fetchRun s = .run i s') (h : exec i s' = .next t) :
    (s.phase = .unpack ∧ UnpackStep s t) ∨ (s.phase = .decode ∧ DecodeStep s t) := by
  rcases fetchRun_cases hf with ⟨hp, hi, rfl⟩ | ⟨hp, hs, rfl, rfl⟩ | ⟨c, hp, hs, hc, rfl, rfl⟩ | ⟨hp, hs, he, hn, rfl, rfl⟩
  · exact .inl ⟨hp, exec_unpackStep hi h⟩
  · refine .inr ⟨hp, ?_⟩
    split at h
    · rename_i hn
      cases h
      exact .empty hs hn
    · rename_i hn
      cases h
      exact .init hs (Nat.pos_of_ne_zero hn)
  · exact .inr ⟨hp, exec_decodeStep hs hc h⟩
  · cases h
    exact .inr ⟨hp, .finish hs he hn⟩

/-- Starting an operation, everything it can do when it answers. -/
theorem exec_command_cases {c : HostCmd} {s t : State} (h : exec c.toInstr s = .next t) :
    s.running = false ∧
      ((∃ src, c = .unpack src ∧ t = startUnpacking .unpack src s)
      ∨ (∃ codes, c = .decode codes ∧ t = startDecoding codes s)
      ∨ (∃ src, c = .decompress src ∧ t = startUnpacking .decompress src s)
      ∨ (∃ src sink, c = .extract src sink ∧ t = { startUnpacking .extract src s with sinkHeld := some sink })) := by
  cases c with
  | unpack src => exact (beginRun_cases h).imp id fun h => .inl ⟨src, rfl, h⟩
  | decode codes => exact (beginRun_cases h).imp id fun h => .inr (.inl ⟨codes, rfl, h⟩)
  | decompress src => exact (beginRun_cases h).imp id fun h => .inr (.inr (.inl ⟨src, rfl, h⟩))
  | extract src sink =>
    obtain ⟨h1, h2⟩ := beginRun_cases (start := fun s => { startUnpacking .extract src s with sinkHeld := some sink }) h
    exact ⟨h1, .inr (.inr (.inr ⟨src, sink, rfl, h2⟩))⟩

/-- A property kept by the host's events, by a hardware reset, by every start, and by every step of the unpack loop
and of the decode loop, is kept by every step. -/
theorem step_preserves {P : State → Prop} (hhost : ∀ s h, P s → P { s with host := h })
    (hreset : ∀ s, P s → P (hardwareReset s))
    (hstart : ∀ (s t : State) (c : HostCmd), P s → exec c.toInstr s = .next t → P t)
    (hunpack : ∀ s t, P s → s.phase = .unpack → UnpackStep s t → P t)
    (hdecode : ∀ s t, P s → s.phase = .decode → DecodeStep s t → P t)
    {s t : State} (hs : P s) (hst : step s = .next t) : P t := by
  obtain ⟨h, hh⟩ := step_cases hst
  have hs' := hhost s h hs
  rcases hh with ⟨-, rfl⟩ | rfl | ⟨c, -, he⟩ | ⟨i, s', -, hf, he⟩
  · exact hs'
  · exact hreset _ hs'
  · exact hstart _ _ c hs' he
  · rcases runStep_cases hf he with ⟨hp, hu⟩ | ⟨hp, hd⟩
    · exact hunpack _ _ hs' hp hu
    · exact hdecode _ _ hs' hp hd

/-- Everything a quiet step can do when it answers. -/
theorem quietStep_cases {s t : State} (hq : s.quiet = true) (hst : step s = .next t) :
    (s.running = false ∧ s.host = [] ∧ t = s)
    ∨ (∃ c rest, s.running = false ∧ s.host = .start c :: rest ∧ exec c.toInstr { s with host := rest } = .next t)
    ∨ (s.phase = .unpack ∧ UnpackStep s t) ∨ (s.phase = .decode ∧ DecodeStep s t) := by
  cases hr : s.running with
  | false =>
    cases hh : s.host with
    | nil =>
      refine .inl ⟨rfl, rfl, ?_⟩
      cases hp : s.phase <;> simp_all [step, fetch, fetchRun, State.running]
    | cons ev rest =>
      cases ev with
      | start c => exact .inr (.inl ⟨c, rest, rfl, rfl, step_command hr hh ▸ hst⟩)
      | pass => simp [State.quiet, hh] at hq
      | reset => simp [State.quiet, hh] at hq
  | true =>
    have hf : fetch s = fetchRun s := by
      unfold State.quiet at hq
      unfold fetch
      split at hq <;> simp_all
    unfold step at hst
    rw [hf] at hst
    cases hx : fetchRun s with
    | wait s' => exact absurd ((fetchRun_wait hx).1.symm.trans hr) (by decide)
    | reset s' => exact absurd hx fetchRun_no_reset
    | stuck f => simp [hx] at hst
    | run i s' =>
      simp only [hx] at hst
      exact .inr (.inr (runStep_cases hx hst))

end Sys2Proof.Machine
end

