-- ==== Sys2Proof/Laws/PerInstr.lean ====
section
/-! SUPPORT. Statements made per instruction: the words of an instruction have the width its row of
spec/opcode_table.json gives, and meet the row's match under its mask. -/

namespace Sys2Proof.Laws

/-- How many bits a row of the opcode table gives its words (the length of its pattern string). -/
def rowBits : Instr → Nat
  | .unpk3 _ _ => 24
  | .unpk2 _ _ => 16
  | .unpk1 _ => 8
  | .unpk0 => 0
  | .dempty => 0
  | .dinit => 0
  | .dfirst _ => 12
  | .dfirstbad _ => 12
  | .dlit _ => 12
  | .dref _ => 12
  | .dnew _ => 12
  | .dbad _ => 12
  | .dend => 0
  | .unpack _ => 0
  | .decode _ => 0
  | .decompress _ => 0
  | .extract _ _ => 0

/-- The row's mask; every row's match is 0 (R89). -/
def rowMask : Instr → Nat
  | .unpk3 _ _ => 0
  | .unpk2 _ _ => 0
  | .unpk1 _ => 0
  | .unpk0 => 0
  | .dempty => 0
  | .dinit => 0
  | .dfirst _ => 0xF00
  | .dfirstbad _ => 0
  | .dlit _ => 0xF00
  | .dref _ => 0
  | .dnew _ => 0
  | .dbad _ => 0
  | .dend => 0
  | .unpack _ => 0
  | .decode _ => 0
  | .decompress _ => 0
  | .extract _ _ => 0

/-- The width of some words. -/
def wordBits : Words → Nat
  | .chunk bytes => 8 * bytes.length
  | .code _ => 12
  | .nothing => 0
  | .command _ => 0

/-- Words read as one number, the first byte most significant. -/
def wordValue : Words → Nat
  | .chunk bytes => bytes.foldl (fun v b => v * 256 + b.toNat) 0
  | .code c => c.toNat
  | .nothing => 0
  | .command _ => 0

namespace WordShape

/-- The words of `i` have the row's width and meet the row's match under its mask. -/
def Statement (i : Instr) : Prop :=
  wordBits (encode i) = rowBits i ∧ wordValue (encode i) &&& rowMask i = 0

theorem sym_fixed_bits (sym : Sym) : (sym.setWidth 12).toNat &&& 0xF00 = 0 := by
  revert sym
  decide

theorem unpk3 (code1 code2 : Code) : Statement (.unpk3 code1 code2) := ⟨rfl, Nat.and_zero _⟩
theorem unpk2 (pad : BitVec 4) (code : Code) : Statement (.unpk2 pad code) := ⟨rfl, Nat.and_zero _⟩
theorem unpk1 (byte : Byte) : Statement (.unpk1 byte) := ⟨rfl, Nat.and_zero _⟩
theorem unpk0 : Statement .unpk0 := ⟨rfl, rfl⟩
theorem dempty : Statement .dempty := ⟨rfl, rfl⟩
theorem dinit : Statement .dinit := ⟨rfl, rfl⟩
theorem dfirst (sym : Sym) : Statement (.dfirst sym) := ⟨rfl, sym_fixed_bits sym⟩
theorem dfirstbad (code : Code) : Statement (.dfirstbad code) := ⟨rfl, Nat.and_zero _⟩
theorem dlit (sym : Sym) : Statement (.dlit sym) := ⟨rfl, sym_fixed_bits sym⟩
theorem dref (code : Code) : Statement (.dref code) := ⟨rfl, Nat.and_zero _⟩
theorem dnew (code : Code) : Statement (.dnew code) := ⟨rfl, Nat.and_zero _⟩
theorem dbad (code : Code) : Statement (.dbad code) := ⟨rfl, Nat.and_zero _⟩
theorem dend : Statement .dend := ⟨rfl, rfl⟩
theorem unpack (src : List Byte) : Statement (.unpack src) := ⟨rfl, Nat.and_zero _⟩
theorem decode (codes : List Code) : Statement (.decode codes) := ⟨rfl, Nat.and_zero _⟩
theorem decompress (src : List Byte) : Statement (.decompress src) := ⟨rfl, Nat.and_zero _⟩
theorem extract (src : List Byte) (sink : SinkId) : Statement (.extract src sink) := ⟨rfl, Nat.and_zero _⟩

end WordShape

end Sys2Proof.Laws
end

