-- ==== Sys2Proof/Laws/Run.lean ====
section
/-! SUPPORT. Runs of several steps: the first step of one, and two in a row. -/

namespace Sys2Proof.Machine

/-- One more step in front of a run, on any machine of the host's interface. -/
theorem run_of_step (M : Host.Core) (k : Nat) {s t : M.State} (h : M.step s = .next t) :
    M.run (k + 1) s = M.run k t := by
  rw [Host.Core.run, h]

/-- A run that answers, then the rest of it, on any machine of the host's interface. -/
theorem run_of_run (M : Host.Core) (m k : Nat) {s t : M.State} (h : M.run m s = .next t) :
    M.run (m + k) s = M.run k t := by
  induction m generalizing s with
  | zero =>
    cases h
    rw [Nat.zero_add]
  | succ m ih =>
    rw [Nat.add_right_comm]
    cases hs : M.step s with
    | next s' =>
      rw [run_of_step M _ hs] at h ⊢
      exact ih h
    | fault f => simp [Host.Core.run, hs] at h
    | refused r => simp [Host.Core.run, hs] at h

/-- A run of the block, step by step. -/
theorem core_run_step (k : Nat) {s t : State} (h : step s = .next t) :
    Host.Core.run Sys2Proof.core (k + 1) s = Host.Core.run Sys2Proof.core k t :=
  run_of_step Sys2Proof.core k h

/-- Two runs of the block in a row. -/
theorem core_run_add {m : Nat} (k : Nat) {s t : State} (h : Host.Core.run Sys2Proof.core m s = .next t) :
    Host.Core.run Sys2Proof.core (m + k) s = Host.Core.run Sys2Proof.core k t :=
  run_of_run Sys2Proof.core m k h

end Sys2Proof.Machine
end

