-- ==== Sys2Proof/Tests/Slice0.lean ====
section
/-! SUPPORT. Small tests of the model, with expected results from 95_test_vectors.md and 30_encoding.md, and a witness
for the hypotheses of every statement that has any. -/

namespace Sys2Proof.Tests

open Sys2Proof.Machine Sys2Proof.Safety

/-! ### Helpers -/

/-- The next state of an outcome. -/
def nextOf : Host.Outcome State Fault Refusal → Option State
  | .next s => some s
  | .fault _ => none
  | .refused _ => none

/-- The unpack loop of an operation, `bytes` to come. -/
def unpacking (op : HostOp) (bytes : List Byte) : State :=
  { State.reset with phase := .unpack, op := some op, input := bytes, srcHeld := true }

/-- The decode loop of a `DECODE`, past its start, before the first code. -/
def decoding (codes : List Code) : State :=
  { State.reset with phase := .decode, op := some .decode, cq := codes, decStarted := true }

/-- The string of two symbols. -/
def pair (a b : Sym) : Entry :=
  { first := a, rest := [b] }

/-- The state of V27 and its trace before position 3, with the last code of the sequence to choose. -/
def mid (last : Code) : State :=
  { decoding [65#12, 66#12, 256#12, last] with
    ci := 3
    code := some 256#12
    dictSize := 258
    dictRam := [(256, pair 65#8 66#8), (257, pair 66#8 65#8)]
    prev := some (pair 65#8 66#8)
    cur := some (pair 65#8 66#8)
    out := [65#8, 66#8, 65#8, 66#8] }

/-- The state of V27 past its last code. -/
def ended : State :=
  { mid 258#12 with
    ci := 4
    code := some 258#12
    dictSize := 259
    dictRam := [(256, pair 65#8 66#8), (257, pair 66#8 65#8), (258, { first := 65#8, rest := [66#8, 65#8] })]
    prev := some { first := 65#8, rest := [66#8, 65#8] }
    cur := some { first := 65#8, rest := [66#8, 65#8] }
    out := [65#8, 66#8, 65#8, 66#8, 65#8, 66#8, 65#8] }

/-- The identity (R1). -/
theorem test_identity :
    Config.identity = { name := "TomCS3/LzwDecompressor core", codeWidth := 12, capacity := 4096, baseEntries := 256,
                        direction := .decodeOnly } := rfl

/-! ### Well-formedness: an ill-formed term for each check -/

theorem smoke_dfirstbad : (Instr.dfirstbad 255#12).wf = false ∧ (Instr.dfirstbad 256#12).wf = true := by decide

theorem smoke_dref_low : (Instr.dref 255#12).wf = false ∧ (Instr.dref 256#12).wf = true := by decide

theorem smoke_dref_high : (Instr.dref 4095#12).wf = false ∧ (Instr.dref 4094#12).wf = true := by decide

theorem smoke_dnew : (Instr.dnew 255#12).wf = false ∧ (Instr.dnew 4095#12).wf = true := by decide

theorem smoke_dbad : (Instr.dbad 256#12).wf = false ∧ (Instr.dbad 257#12).wf = true := by decide

/-! ### Decoding: a word for every constructor, written out from the encodings (30_encoding.md) -/

/-- Format G3 (R82): 1010 1011 1100, then 1101 1110 1111. -/
theorem test_decode_unpk3 :
    decode .unpacking (.chunk [0b10101011#8, 0b11001101#8, 0b11101111#8])
      = .ok (.unpk3 0b101010111100#12 0b110111101111#12) := by decide

/-- Format G2 (R83): padding 1111, then 1010 1011 1100 (V5). -/
theorem test_decode_unpk2 :
    decode .unpacking (.chunk [0b11111010#8, 0b10111100#8]) = .ok (.unpk2 0b1111#4 0b101010111100#12) := by decide

/-- Format G1 (R84, V8). -/
theorem test_decode_unpk1 : decode .unpacking (.chunk [0b10101011#8]) = .ok (.unpk1 0b10101011#8) := by decide

/-- Format G0 (R85). -/
theorem test_decode_unpk0 : decode .unpacking (.chunk []) = .ok .unpk0 := by decide

/-- A longer chunk is rejected by name (log entry 20); no fetch reads one (R52). -/
theorem test_decode_long_chunk :
    decode .unpacking (.chunk [0#8, 0#8, 0#8, 0#8]) = .error (.chunkTooLong 4) := by decide

/-- The start of the decoder (R90). -/
theorem test_decode_start :
    decode (.starting 0) .nothing = .ok .dempty ∧ decode (.starting 1) .nothing = .ok .dinit := by decide

/-- Format C12 at position 0 (R88): 0000 and the symbol, or any other code. -/
theorem test_decode_first :
    decode (.decoding 0 256) (.code 0b000001000001#12) = .ok (.dfirst 0b01000001#8)
    ∧ decode (.decoding 0 256) (.code 0b000100000000#12) = .ok (.dfirstbad 0b000100000000#12) := by decide

/-- The classes of a later code meet at 255, 256 and `dict_size` (R88). -/
theorem test_decode_classes :
    decode (.decoding 1 258) (.code 0b000011111111#12) = .ok (.dlit 0b11111111#8)
    ∧ decode (.decoding 1 258) (.code 0b000100000000#12) = .ok (.dref 0b000100000000#12)
    ∧ decode (.decoding 1 258) (.code 0b000100000001#12) = .ok (.dref 0b000100000001#12)
    ∧ decode (.decoding 1 258) (.code 0b000100000010#12) = .ok (.dnew 0b000100000010#12)
    ∧ decode (.decoding 1 258) (.code 0b000100000011#12) = .ok (.dbad 0b000100000011#12) := by decide

/-- The end of the sequence (R90). -/
theorem test_decode_end : decode .ended .nothing = .ok .dend := by decide

/-- The host's commands (R97). -/
theorem test_decode_commands :
    decode .waiting (.command (.unpack [1#8])) = .ok (.unpack [1#8])
    ∧ decode .waiting (.command (.decode [1#12])) = .ok (.decode [1#12])
    ∧ decode .waiting (.command (.decompress [1#8])) = .ok (.decompress [1#8])
    ∧ decode .waiting (.command (.extract [1#8] 7)) = .ok (.extract [1#8] 7) := by decide

/-- Words out of their place are rejected by name. -/
theorem test_decode_out_of_place : decode .waiting (.chunk [0#8]) = .error .wordsOutOfPlace := by decide

/-- `pack` on the example of R95's vectors: `[0xABC, 0xDEF, 0x123]` is `AB CD EF 01 23`. -/
theorem test_pack : pack [0xABC#12, 0xDEF#12, 0x123#12] = [0xAB#8, 0xCD#8, 0xEF#8, 0x01#8, 0x23#8] := by decide

/-- The table's numbering of a chunk: the first byte of the stream is the most significant one. -/
theorem test_table_word : decodeTableWord 24 0xABCDEF = some (.unpk3 0xABC#12 0xDEF#12) := by decide

/-- A word of the table placed for the next step (log entry 9). -/
theorem test_fetch_word :
    (nextOf (step (State.reset.withFetchWord 16 0xFABC))).map (·.cq) = some [0xABC#12] := by decide

/-! ### One step each -/

/-- S1. -/
theorem test_unpk3 :
    (nextOf (step (unpacking .unpack [0xAB#8, 0xCD#8, 0xEF#8]))).map (fun t => (t.cq, t.rp))
      = some ([0xABC#12, 0xDEF#12], 3) := by decide

/-- V6: the tail is right-aligned. -/
theorem test_unpk2 :
    (nextOf (step (unpacking .unpack [0xAB#8, 0xC0#8]))).map (fun t => (t.cq, t.rp))
      = some ([0xBC0#12], 2) := by decide

/-- V8. -/
theorem test_unpk1 :
    (nextOf (step (unpacking .unpack [0xAB#8]))).map (fun t => (outcome t, t.errinfo))
      = some (some (.fail .invalidData), { cause := .danglingByte, index := 0, value := 0xAB }) := by decide

/-- V1. -/
theorem test_unpk0 : (nextOf (step (unpacking .unpack []))).map outcome = some (some (.ok (.codes []))) := by decide

/-- P1 step 3: `DECOMPRESS` goes on to the decoder. -/
theorem test_unpk0_hand_over :
    (nextOf (step (unpacking .decompress []))).map (fun t => t.phase) = some .decode := by decide

/-- V20. -/
theorem test_dempty :
    (nextOf (step { decoding [] with decStarted := false })).map (fun t => (outcome t, t.errinfo.cause))
      = some (some (.fail .invalidData), .emptySequence) := by decide

/-- P1 step 4. -/
theorem test_dinit :
    (nextOf (step { decoding [65#12] with decStarted := false })).map (fun t => (t.dictSize, t.ci))
      = some (256, 0) := by decide

/-- V21: code 0 is the symbol 0. -/
theorem test_dfirst :
    (nextOf (step (decoding [0#12]))).map (fun t => (t.out, t.prev, t.dictSize))
      = some ([0#8], some (Entry.single 0#8), 256) := by decide

/-- V21b: 256 as the first code is not a new code. -/
theorem test_dfirstbad :
    (nextOf (step (decoding [256#12]))).map (fun t => (outcome t, t.errinfo))
      = some (some (.fail .unknownCode), { cause := .firstCode, index := 0, value := 256 }) := by decide

/-- P1 step 6: `[256] = "AA"`. -/
theorem test_dlit :
    (nextOf (step { decoding [65#12, 65#12] with ci := 1, prev := some (Entry.single 65#8), out := [65#8] })).map
        (fun t => (t.dictRam, t.dictSize, t.out))
      = some ([(256, pair 65#8 65#8)], 257, [65#8, 65#8]) := by decide

/-- Where `prev` has never been written the operation still runs (log entry 21): what does not rest on it is as ever. -/
theorem test_dlit_unwritten_prev :
    (nextOf (exec (.dlit 65#8) (decoding []))).map (fun t => (t.cur, t.dictSize, t.out, t.prev))
      = some (some (Entry.single 65#8), 257, [65#8], some (Entry.single 65#8)) := by decide

/-- The wrap (R141): the counter returns to 256 and the entry is at 4095. -/
theorem test_dlit_wrap :
    (nextOf (exec (.dlit 65#8) { decoding [] with dictSize := 4095, prev := some (Entry.single 65#8) })).map
        (fun t => (t.dictRam, t.dictSize, t.nreset))
      = some ([(4095, pair 65#8 65#8)], 256, 1) := by decide

/-- The trace of V27, position 3, with the code 256 instead: `DREF`, `[258] = "ABA"`. -/
theorem test_dref :
    (nextOf (step (mid 256#12))).map (fun t => (t.cur, ramLookup 258 t.dictRam))
      = some (some (pair 65#8 66#8), some { first := 65#8, rest := [66#8, 65#8] }) := by decide

/-- The trace of V27, position 3: the whole next state. -/
theorem test_dnew : nextOf (step (mid 258#12)) = some ended := by decide

/-- One past the new code (as V29a): index 3, nothing inserted or appended. -/
theorem test_dbad :
    (nextOf (step (mid 259#12))).map (fun t => (t.errinfo, t.dictSize, t.out.length))
      = some ({ cause := .codeBeyond, index := 3, value := 259 }, 258, 4) := by decide

/-- V27: the end. -/
theorem test_dend :
    (nextOf (step ended)).map (fun t => (outcome t, t.outlen))
      = some (some (.ok (.text [65#8, 66#8, 65#8, 66#8, 65#8, 66#8, 65#8])), 7) := by decide

/-- V58's last step: the sink receives the text in one write. -/
theorem test_dend_sink :
    (nextOf (step { ended with op := some .extract, sinkHeld := some 7, out := [72#8, 105#8, 33#8] })).map
        (fun t => (t.sinkLog, outcome t))
      = some ([(7, [72#8, 105#8, 33#8])], some (.ok .success)) := by decide

/-- `UNPACK` begins (R171). -/
theorem test_unpack :
    (nextOf (exec (.unpack [1#8]) ended)).isSome = false
    ∧ (nextOf (exec (.unpack [1#8]) { ended with phase := .done })).map (fun t => (t.phase, t.out, t.dictSize))
      = some (.unpack, [], 256) := by decide

/-- `DECODE` begins (R172), with what an earlier run left in the RAM not valid (V61). -/
theorem test_decode :
    (nextOf (exec (.decode [65#12]) { ended with phase := .done })).map
        (fun t => (t.phase, t.cq, validKey 256 t))
      = some (.decode, [65#12], false) := by decide

/-- `DECOMPRESS` begins (R173). -/
theorem test_decompress :
    (nextOf (exec (.decompress [1#8]) State.reset)).map (fun t => (t.phase, t.input))
      = some (.unpack, [1#8]) := by decide

/-- `EXTRACT` begins and holds its sink (R174, R177). -/
theorem test_extract :
    (nextOf (exec (.extract [1#8] 7) State.reset)).map (fun t => (t.phase, t.sinkHeld))
      = some (.unpack, some 7) := by decide

/-! ### Witnesses: the hypotheses of each statement are met -/

theorem witness_step_unpacks :
    (unpacking .unpack [1#8, 2#8]).quiet = true ∧ (unpacking .unpack [1#8, 2#8]).phase = .unpack
    ∧ decode .unpacking (.chunk [1#8, 2#8]) = .ok (.unpk2 0#4 0x102#12) := by decide

theorem witness_step_decodes :
    (mid 258#12).quiet = true ∧ (mid 258#12).phase = .decode ∧ (mid 258#12).decStarted = true
    ∧ (mid 258#12).cq[(mid 258#12).ci]? = some 258#12
    ∧ decode (.decoding (mid 258#12).ci (mid 258#12).dictSize) (.code 258#12) = .ok (.dnew 258#12) := by decide

theorem witness_step_starts :
    ({ decoding [65#12] with decStarted := false } : State).quiet = true
    ∧ ({ decoding [65#12] with decStarted := false } : State).phase = .decode
    ∧ decode (.starting ({ decoding [65#12] with decStarted := false } : State).cq.length) .nothing = .ok .dinit := by
  decide

theorem witness_step_ends :
    ended.quiet = true ∧ ended.phase = .decode ∧ ended.decStarted = true ∧ ended.ci = ended.cq.length
    ∧ 0 < ended.cq.length ∧ decode .ended .nothing = .ok .dend := by decide

theorem witness_step_command :
    ({ State.reset with host := [.start (.unpack [])] } : State).running = false
    ∧ decode .waiting (.command (.unpack [])) = .ok (.unpack []) := by decide

/-- `IdleBlockWaits` and `FailedBlockWaits`: nothing to do, a step let go by, and a step let go by during a run. -/
theorem witness_idle :
    State.reset.running = false ∧ State.reset.host = []
    ∧ ({ State.reset with host := [.pass] } : State).running = false
    ∧ ({ mid 258#12 with host := [.pass] } : State).running = true ∧ (mid 258#12).quiet = true := by decide

/-- `EncodedOperationDecodesBack`, at the ends of the classes. -/
theorem witness_selects :
    Context.unpacking.selects (.unpk2 0xF#4 0xFFF#12) = true
    ∧ (Context.decoding 1 4095).selects (.dref 4094#12) = true
    ∧ (Context.decoding 1 4095).selects (.dnew 4095#12) = true
    ∧ (Context.decoding 1 256).selects (.dbad 257#12) = true
    ∧ (Context.decoding 0 256).selects (.dfirstbad 256#12) = true
    ∧ (Context.decoding 0 256).selects (.dfirst 255#8) = true := by decide

theorem witness_decoded_words :
    decode (.decoding 1 4095) (.code 4095#12) = .ok (.dnew 4095#12) ∧ (256 ≤ 4095 ∧ 4095 ≤ 4095)
    ∧ decode (.decoding 1 4095) (.code 4094#12) = .ok (.dref 4094#12) := by decide

/-- `ChunkLengthSelects` and `LongerChunksAreRejected`: a list of each length. -/
theorem witness_chunk_lengths :
    [1#8, 2#8, 3#8].length = 3 ∧ [1#8, 2#8].length = 2 ∧ [1#8].length = 1 ∧ ([] : List Byte).length = 0
    ∧ 3 < [1#8, 2#8, 3#8, 4#8].length := by decide

theorem witness_full_group :
    (unpacking .unpack [1#8, 2#8, 3#8, 4#8]).quiet = true ∧ (unpacking .unpack [1#8, 2#8, 3#8, 4#8]).phase = .unpack
    ∧ (unpacking .unpack [1#8, 2#8, 3#8, 4#8]).input.drop 0 = 1#8 :: 2#8 :: 3#8 :: [4#8] := by decide

theorem witness_tail :
    ({ unpacking .unpack [1#8, 2#8, 3#8, 4#8, 5#8] with rp := 3 } : State).quiet = true
    ∧ ({ unpacking .unpack [1#8, 2#8, 3#8, 4#8, 5#8] with rp := 3 } : State).input.drop 3 = [4#8, 5#8] := by decide

theorem witness_dangling :
    ({ unpacking .extract [1#8, 2#8, 3#8, 4#8] with rp := 3 } : State).quiet = true
    ∧ ({ unpacking .extract [1#8, 2#8, 3#8, 4#8] with rp := 3 } : State).input.drop 3 = [4#8] := by decide

theorem witness_end_of_stream :
    (unpacking .unpack []).quiet = true ∧ (unpacking .unpack []).input.length ≤ (unpacking .unpack []).rp
    ∧ (unpacking .unpack []).op = some .unpack ∧ (unpacking .decompress []).op = some .decompress
    ∧ (unpacking .extract []).op = some .extract ∧ (unpacking .extract []).op ≠ some .unpack := by decide

/-- `UnpackerTouchesNoDecoderState`: a step on a group, and one on a dangling byte. -/
theorem witness_unpacker_steps :
    (nextOf (step (unpacking .unpack [1#8, 2#8, 3#8]))).map (·.chn) = some 3
    ∧ (nextOf (step (unpacking .unpack [1#8]))).map (·.chn) = some 1 := by decide

theorem witness_dinit_keys : validKey 255 (decoding [65#12]) = true ∧ validKey 256 (decoding [65#12]) = false := by
  decide

/-- `LiteralCodeStep` and `NewCodeStep`: both ends of the counter's range. -/
theorem witness_inserting :
    ({ mid 258#12 with dictSize := 4095 } : State).prev = some (pair 65#8 66#8)
    ∧ 256 ≤ ({ mid 258#12 with dictSize := 4095 } : State).dictSize
    ∧ ({ mid 258#12 with dictSize := 4095 } : State).dictSize ≤ 4095
    ∧ ({ mid 258#12 with dictSize := 256 } : State).dictSize ≤ 4095 := by decide

theorem witness_reference :
    (mid 256#12).prev = some (pair 65#8 66#8) ∧ (mid 256#12).dictSize ≤ 4095 ∧ 256 ≤ (256#12).toNat
    ∧ (256#12).toNat < (mid 256#12).dictSize
    ∧ ramLookup (256#12).toNat (mid 256#12).dictRam = some (pair 65#8 66#8) := by decide

theorem witness_new_code_entry :
    (258#12).toNat = (mid 258#12).dictSize ∧ (nextOf (exec (.dnew 258#12) (mid 258#12))).isSome = true := by decide

/-- `InsertingStepsStopOnlyAtTheDictionary`: both ends of the counter's range and a read that answers, an invalid key, an
unwritten location, an unwritten `prev`, a counter on either side of its range. -/
theorem witness_stops :
    (256 ≤ (decoding []).dictSize ∧ (decoding []).dictSize ≤ 4095)
    ∧ (256 ≤ ({ mid 258#12 with dictSize := 4095 } : State).dictSize
      ∧ ({ mid 258#12 with dictSize := 4095 } : State).dictSize ≤ 4095)
    ∧ dictRead (257#12).toNat (mid 258#12) = .ok (pair 66#8 65#8)
    ∧ dictRead (4095#12).toNat (mid 258#12) = .error (.invalidKey 4095)
    ∧ dictRead (256#12).toNat { decoding [] with dictSize := 257 } = .error (.entryUnwritten 256)
    ∧ (decoding []).prev = none
    ∧ 4096 ≤ ({ mid 258#12 with dictSize := 4096 } : State).dictSize
    ∧ ({ mid 258#12 with dictSize := 255 } : State).dictSize < 256
    ∧ dictRead (255#12).toNat { mid 258#12 with dictSize := 255 } = .ok (Entry.single 255#8) := by decide

theorem witness_end_of_codes :
    ended.op = some .decode ∧ ({ ended with op := some .decompress } : State).op = some .decompress := by decide

theorem witness_sink_once :
    ({ ended with op := some .extract, sinkHeld := some 7 } : State).sinkHeld = some 7 ∧ ended.sinkHeld = none
    ∧ (nextOf (exec .dend { ended with op := some .extract, sinkHeld := some 7 })).isSome = true := by decide

theorem witness_decoder_steps :
    (mid 258#12).quiet = true ∧ (mid 258#12).phase = .decode ∧ step (mid 258#12) = .next ended := ⟨rfl, rfl, rfl⟩

theorem witness_counter :
    ({ mid 258#12 with dictSize := 4095 } : State).dictSize = 4095 ∧ (mid 258#12).dictSize ≠ 4095 := by decide

theorem witness_dict_read :
    257 < (mid 258#12).dictSize ∧ ramLookup 257 (mid 258#12).dictRam = some (pair 66#8 65#8)
    ∧ ramLookup 256 ({ decoding [] with dictSize := 257 } : State).dictRam = none
    ∧ (mid 258#12).dictSize ≤ 258 := by decide

theorem witness_dict_write :
    (256 ≤ 256 ∧ 256 ≤ 4095) ∧ (256 ≤ 4095 ∧ 4095 ≤ 4095) := by decide

theorem witness_memory : Memory.wf (mid 258#12).dictRam = true ∧ (nextOf (step (mid 258#12))).isSome = true := by decide

/-- `EveryOperationInitialises` and `HostOperationsComplete`: after a reset, after a success, after a failure. -/
theorem witness_not_running :
    State.reset.running = false ∧ ({ ended with phase := .done } : State).running = false
    ∧ ({ ended with phase := .failed } : State).running = false := by decide

theorem witness_running : (mid 258#12).running = true ∧ (unpacking .unpack []).running = true := by decide

theorem witness_reset_event :
    ({ mid 258#12 with host := [.reset, .start (.unpack [])] } : State).host = .reset :: [.start (.unpack [])] := by
  decide

theorem witness_host_reads :
    ({ ended with phase := .done } : State).phase = .done ∧ ({ ended with phase := .failed } : State).phase = .failed
    ∧ State.reset.phase = .idle ∧ ended.running = true := by decide

/-- A state in the middle of a run meets the invariant. -/
theorem witness_inv : Inv (mid 258#12) where
  memory := by decide
  counter := by decide
  known := by
    intro k h1 h2
    have h2 : k < 258 := h2
    obtain rfl | rfl : k = 256 ∨ k = 257 := by omega
    · rfl
    · rfl
  source := by decide
  chunk := by decide
  sequence := by decide
  failed := by decide
  info := by decide
  hidden := by decide
  shown := by decide
  srcClaim := by decide
  sinkClaim := by decide
  operation := by decide
  noUnpackInDecode := by decide
  noDecodeInUnpack := by decide
  fresh := by decide
  started := by decide
  unread := by decide
  previous := by decide

theorem witness_counter_law : CounterLaw (mid 258#12) := by
  unfold CounterLaw
  decide

theorem witness_length_law : LengthLaw (mid 258#12) := by
  intro _
  refine ⟨?_, ?_, by decide, by decide⟩
  · rintro e ⟨⟩
    decide
  · intro k e _ he
    have hm : (k, e) ∈ (mid 258#12).dictRam := by
      simp only [mid, ramLookup] at he ⊢
      split at he
      · cases he
        simp_all
      · split at he
        · cases he
          simp_all
        · cases he
    simp only [mid, List.mem_cons, List.not_mem_nil, or_false, Prod.mk.injEq] at hm
    rcases hm with ⟨-, rfl⟩ | ⟨-, rfl⟩ <;> decide

/-- `StepKeepsInvariant` and the laws: the step that goes with the states above. -/
theorem witness_inv_step : step (mid 258#12) = .next ended := rfl

/-- `InvariantStateNeverStops`, beside `witness_inv`: the operation of the step, and a misread for contrast. -/
theorem witness_no_misread :
    (∃ s', fetch (mid 258#12) = .run (.dnew 258#12) s' ∧ misreads (.dnew 258#12) s' = false)
    ∧ misreads (.dnew 256#12) (decoding []) = true := ⟨⟨_, rfl, rfl⟩, rfl⟩

/-- `PhaseChangesAsListed`: a start, a hand-over, an end, and the three failures of the decoder. -/
theorem witness_phase_changes :
    (nextOf (step { State.reset with host := [.start (.decode [])] })).map (·.phase) = some .decode
    ∧ (nextOf (step (unpacking .decompress []))).map (·.phase) = some .decode
    ∧ (nextOf (step (unpacking .unpack []))).map (·.phase) = some .done
    ∧ (nextOf (step (unpacking .unpack [1#8]))).map (·.phase) = some .failed
    ∧ (nextOf (step ended)).map (·.phase) = some .done
    ∧ (nextOf (step (mid 259#12))).map (·.phase) = some .failed := by decide

theorem witness_running_step :
    (mid 258#12).quiet = true ∧ (mid 258#12).running = true ∧ step (mid 258#12) = .next ended := ⟨rfl, rfl, rfl⟩

/-- `LastLocationIsNeverRead`, beside `witness_inv`. -/
theorem witness_reference_selected :
    decode (.decoding 3 (mid 257#12).dictSize) (.code 257#12) = .ok (.dref 257#12) := by decide

/-- The statements about whole runs: an operation about to start, from a state that an earlier run left. -/
theorem witness_runs :
    ({ ended with phase := .failed, host := [.start (.unpack [1#8, 2#8])] } : State).running = false
    ∧ ({ ended with phase := .done, host := [.start (.decode [65#12])] } : State).running = false
    ∧ unpackClosed [1#8, 2#8] = .ok [0x102#12] ∧ unpackClosed [1#8] = .error .invalidData
    ∧ decodeClosed [65#12] = some (.ok [65#8]) ∧ decodeClosed [256#12] = some (.error .unknownCode) := ⟨rfl, rfl, rfl, rfl, rfl, rfl⟩

theorem witness_unpacked_codes :
    [1#8].length % 3 = 1 ∧ [1#8, 2#8].length % 3 = 2 ∧ [1#8, 2#8, 3#8].length % 3 ≠ 1
    ∧ [1#8, 2#8, 3#8, 4#8, 5#8][3 * 1]? = some 4#8 ∧ [1#8, 2#8, 3#8, 4#8, 5#8][3 * 0 + 2]? = some 3#8 := by decide

/-- V54: a bad code and a dangling byte. -/
theorem witness_dangling_run :
    [0x04#8, 0x1F#8, 0xA0#8, 0x00#8].length % 3 = 1
    ∧ ({ State.reset with host := [.start (.extract [0x04#8, 0x1F#8, 0xA0#8, 0x00#8] 7)] } : State).running = false
    ∧ closedOutcome (.decompress [0x04#8, 0x1F#8, 0xA0#8, 0x00#8]) = some (.fail .invalidData) := ⟨rfl, rfl, rfl⟩

/-- `BoundedBlockOnlyRefuses`: a step within its bounds, and one beyond them. -/
theorem witness_bounded :
    step (mid 258#12) = .next ended
    ∧ ended.within { entryLenMax := some 3, cqCap := some 4, outCap := some 7 } = true
    ∧ ended.within { entryLenMax := some 2, cqCap := none, outCap := none } = false := ⟨rfl, rfl, rfl⟩

end Sys2Proof.Tests
end

section
/-! The base alphabet (10_state.md rule R25). -/

namespace Sys2Proof.Machine

/-- The entry the ROM holds, field by field (R25). -/
theorem romEntry_eq (k : Nat) : romEntry k = { first := BitVec.ofNat 8 k, rest := [] } := rfl

/-- Settles O34: a key below 256 is answered by the ROM, which no state can change. -/
theorem baseAlphabetIsHardwired : Obligations.BaseAlphabetIsHardwired := by
  intro s k hk
  rw [dictRead_base s hk, romEntry_eq]

end Sys2Proof.Machine
end

section
/-! The memory accesses (20_memory.md): `DictWrite` (R61), and the lengths of what `SrcRead` returns and of what the
decoder accepts (R52, R81). -/

namespace Sys2Proof.Machine

/-- Settles O36: the write is one `ramInsert`, and a lookup after it sees the entry at its key only. -/
theorem dictWriteStoresOneEntry : Obligations.DictWriteStoresOneEntry := by
  intro s k e hlow hhigh
  have hk : 256 ≤ k ∧ k < 4096 := ⟨hlow, Nat.lt_succ_of_le hhigh⟩
  exact ⟨_, dictWrite_eq_ok e s hk, rfl, fun j => ramLookup_ramInsert j k e s.dictRam⟩

/-- The complement of `decodeChunk_ok`. -/
theorem decodeChunk_tooLong {l : List Byte} (h : 3 < l.length) : decodeChunk l = .error (.chunkTooLong l.length) := by
  match l, h with
  | _ :: _ :: _ :: _ :: _, _ => rfl

/-- `SrcRead(n)` is short only where fewer than `n` bytes are left (R52). -/
theorem srcRead_length (n : Nat) (s : State) : (srcRead n s).1.length = min n (s.input.length - s.rp) := by
  simp [srcRead]

/-- Settles O59: a chunk of four bytes or more matches none of the four lengths of R81. -/
theorem longerChunksAreRejected : Obligations.LongerChunksAreRejected :=
  ⟨fun _ h => decodeChunk_tooLong h, srcRead_length 3⟩

end Sys2Proof.Machine
end

section
/-! The formats of the packed stream: a chunk's length selects its operation (30_encoding.md rule R81), and its codes
are bit fields of the word the chunk writes (R82, R83), which the assembly formulas compute (R86). Both views of a code
meet in one number: the value of the formula, and the value of the field. -/

namespace Sys2Proof.Machine

/-! ### One equation for each length of a chunk -/

theorem decode_threeBytes (b0 b1 b2 : Byte) :
    decode .unpacking (.chunk [b0, b1, b2]) = .ok (.unpk3 (assembleFirst b0 b1) (assembleSecond b1 b2)) := rfl

theorem decode_twoBytes (b0 b1 : Byte) :
    decode .unpacking (.chunk [b0, b1]) = .ok (.unpk2 (tailPad b0) (assembleTail b0 b1)) := rfl

theorem decode_oneByte (b : Byte) : decode .unpacking (.chunk [b]) = .ok (.unpk1 b) := rfl

theorem decode_noBytes : decode .unpacking (.chunk []) = .ok .unpk0 := rfl

/-- Settles O5: a list of each length has one shape, and each shape one equation. -/
theorem chunkLengthSelects : Obligations.ChunkLengthSelects := by
  refine fun bytes => ⟨fun h => ?three, fun h => ?two, fun h => ?one, fun h => ?zero⟩
  case three =>
    obtain ⟨b0, b1, b2, rfl⟩ := List.length_eq_three.1 h
    exact ⟨_, _, decode_threeBytes b0 b1 b2⟩
  case two =>
    obtain ⟨b0, b1, rfl⟩ := List.length_eq_two.1 h
    exact ⟨_, _, decode_twoBytes b0 b1⟩
  case one =>
    obtain ⟨b, rfl⟩ := List.length_eq_one_iff.1 h
    exact ⟨_, decode_oneByte b⟩
  case zero =>
    obtain rfl := List.length_eq_zero_iff.1 h
    exact decode_noBytes

/-! ### The formulas on natural numbers -/

/-- Twelve bits are enough for the formula when they are enough for its shifted part. -/
theorem Code.toNat_shiftLeft_or {k : Nat} {high : Code} (low : Code) (h : high.toNat <<< k < 2 ^ 12) :
    (high <<< k ||| low).toNat = high.toNat <<< k ||| low.toNat := by
  rw [BitVec.toNat_or, BitVec.toNat_shiftLeft, Nat.mod_eq_of_lt h]

@[simp] theorem Byte.toNat_setWidth_twelve (b : Byte) : (b.setWidth 12).toNat = b.toNat :=
  BitVec.toNat_setWidth_of_le (by decide)

theorem Byte.toNat_lowNibble (b : Byte) : (b &&& 0x0F#8).toNat = b.toNat % 16 :=
  Nat.and_two_pow_sub_one_eq_mod b.toNat 4

theorem assembleFirst_formula (b0 b1 : Byte) :
    (assembleFirst b0 b1).toNat = b0.toNat <<< 4 ||| b1.toNat >>> 4 := by
  have fits : (b0.setWidth 12).toNat <<< 4 < 2 ^ 12 := by
    rw [Byte.toNat_setWidth_twelve, Nat.shiftLeft_eq]
    omega
  rw [assembleFirst, Code.toNat_shiftLeft_or _ fits, BitVec.toNat_ushiftRight]
  simp only [Byte.toNat_setWidth_twelve]

theorem assembleSecond_formula (b1 b2 : Byte) :
    (assembleSecond b1 b2).toNat = (b1.toNat &&& 0x0F) <<< 8 ||| b2.toNat := by
  have fits : ((b1 &&& 0x0F#8).setWidth 12).toNat <<< 8 < 2 ^ 12 := by
    rw [Byte.toNat_setWidth_twelve, Byte.toNat_lowNibble, Nat.shiftLeft_eq]
    omega
  rw [assembleSecond, Code.toNat_shiftLeft_or _ fits]
  simp only [Byte.toNat_setWidth_twelve]
  rfl

/-- G2's formula is G3's second one, on the tail's two bytes. -/
theorem assembleTail_eq (b0 b1 : Byte) : assembleTail b0 b1 = assembleSecond b0 b1 := rfl

/-- Settles O8: no shift of the formulas loses a bit in twelve bits. -/
theorem assemblyFormulasAreExact : Obligations.AssemblyFormulasAreExact := fun b0 b1 b2 =>
  ⟨⟨_, _, decode_threeBytes b0 b1 b2, assembleFirst_formula b0 b1, assembleSecond_formula b1 b2⟩,
    ⟨_, _, decode_twoBytes b0 b1, assembleSecond_formula b0 b1⟩⟩

/-! ### The values of the codes and of the word of a chunk -/

theorem assembleFirst_toNat (b0 b1 : Byte) : (assembleFirst b0 b1).toNat = b0.toNat * 16 + b1.toNat / 16 := by
  have low : b1.toNat >>> 4 < 2 ^ 4 := by
    rw [Nat.shiftRight_eq_div_pow]
    omega
  rw [assembleFirst_formula, ← Nat.shiftLeft_add_eq_or_of_lt low, Nat.shiftLeft_eq, Nat.shiftRight_eq_div_pow]

theorem assembleSecond_toNat (b1 b2 : Byte) : (assembleSecond b1 b2).toNat = b1.toNat % 16 * 256 + b2.toNat := by
  rw [assembleSecond_formula, ← Nat.shiftLeft_add_eq_or_of_lt b2.isLt, Nat.shiftLeft_eq]
  exact congrArg (· * 256 + b2.toNat) (Byte.toNat_lowNibble b1)

/-- A byte appended below a word, as in the words of R82 and R83. -/
theorem toNat_append_byte {w : Nat} (x : BitVec w) (b : Byte) : (x ++ b).toNat = x.toNat * 256 + b.toNat := by
  rw [BitVec.toNat_append, ← Nat.shiftLeft_add_eq_or_of_lt b.isLt, Nat.shiftLeft_eq]

/-! ### The fields -/

theorem assembleFirst_eq_field (b0 b1 b2 : Byte) : assembleFirst b0 b1 = (b0 ++ b1 ++ b2).extractLsb' 12 12 := by
  apply BitVec.eq_of_toNat_eq
  rw [assembleFirst_toNat, BitVec.extractLsb'_toNat, toNat_append_byte, toNat_append_byte, Nat.shiftRight_eq_div_pow]
  omega

/-- Only the last two bytes of a word reach its bits 11:0, whatever stands above them. -/
theorem assembleSecond_eq_field {w : Nat} (x : BitVec w) (b1 b2 : Byte) :
    assembleSecond b1 b2 = (x ++ b1 ++ b2).extractLsb' 0 12 := by
  apply BitVec.eq_of_toNat_eq
  rw [assembleSecond_toNat, BitVec.extractLsb'_toNat, toNat_append_byte, toNat_append_byte, Nat.shiftRight_zero]
  omega

theorem assembleTail_eq_field (b0 b1 : Byte) : assembleTail b0 b1 = (b0 ++ b1).extractLsb' 0 12 := by
  apply BitVec.eq_of_toNat_eq
  rw [assembleTail_eq, assembleSecond_toNat, BitVec.extractLsb'_toNat, toNat_append_byte, Nat.shiftRight_zero]
  omega

theorem tailPad_eq_field (b0 b1 : Byte) : tailPad b0 = (b0 ++ b1).extractLsb' 12 4 := by
  apply BitVec.eq_of_toNat_eq
  rw [tailPad, BitVec.extractLsb'_toNat, BitVec.extractLsb'_toNat, toNat_append_byte, Nat.shiftRight_eq_div_pow,
    Nat.shiftRight_eq_div_pow]
  omega

/-- Settles O6: each field of the word of three bytes has the value of its assembly formula. -/
theorem groupFieldsAreBitSlices : Obligations.GroupFieldsAreBitSlices := by
  intro b0 b1 b2
  rw [decode_threeBytes, assembleFirst_eq_field b0 b1 b2, assembleSecond_eq_field b0 b1 b2]

/-- Settles O7: the padding and the code are the two fields of the word of two bytes. -/
theorem tailFieldsAreBitSlices : Obligations.TailFieldsAreBitSlices := by
  intro b0 b1
  rw [decode_twoBytes, tailPad_eq_field b0 b1, assembleTail_eq_field b0 b1]

end Sys2Proof.Machine
end

section
/-! The classes of a code (30_encoding.md rule R88). -/

namespace Sys2Proof.Machine

variable {pos dictSize : Nat} {c : Code}

theorem decode_code (pos dictSize : Nat) (c : Code) :
    decode (.decoding pos dictSize) (.code c) = .ok (classify pos dictSize c) := rfl

/-! ### One equation for each class -/

theorem classify_first (hp : pos = 0) (hc : c.toNat < 256) : classify pos dictSize c = .dfirst (c.setWidth 8) := by
  simp [classify, hp, hc]

theorem classify_firstBad (hp : pos = 0) (hc : 256 ≤ c.toNat) : classify pos dictSize c = .dfirstbad c := by
  simp [classify, hp, Nat.not_lt.2 hc]

theorem classify_literal (hp : 0 < pos) (hc : c.toNat < 256) :
    classify pos dictSize c = .dlit (c.setWidth 8) := by
  simp [classify, hp.ne', hc]

theorem classify_reference (hp : 0 < pos) (hc : 256 ≤ c.toNat) (hd : c.toNat < dictSize) :
    classify pos dictSize c = .dref c := by
  simp [classify, hp.ne', Nat.not_lt.2 hc, hd]

theorem classify_new (hp : 0 < pos) (hc : 256 ≤ c.toNat) (hd : c.toNat = dictSize) :
    classify pos dictSize c = .dnew c := by
  subst hd
  simp [classify, hp.ne', Nat.not_lt.2 hc]

theorem classify_bad (hp : 0 < pos) (hc : 256 ≤ c.toNat) (hd : dictSize < c.toNat) :
    classify pos dictSize c = .dbad c := by
  simp [classify, hp.ne', Nat.not_lt.2 hc, hd.not_gt, hd.ne']

/-- Settles O10: the classes cover every code, and each has its equation. Of the counter's bounds only the lower one
matters: it keeps the codes at the counter and beyond it apart from the literals. -/
theorem codeClassesPartition : Obligations.CodeClassesPartition := by
  intro pos dictSize c i hlow _
  rw [decode_code, Except.ok.injEq]
  constructor
  · rintro rfl
    rcases Nat.eq_zero_or_pos pos with hp | hp <;> rcases Nat.lt_or_ge c.toNat 256 with hc | hc
    · exact .inl ⟨hp, hc, classify_first hp hc⟩
    · exact .inr (.inl ⟨hp, hc, classify_firstBad hp hc⟩)
    · exact .inr (.inr (.inl ⟨hp, hc, classify_literal hp hc⟩))
    · rcases Nat.lt_trichotomy c.toNat dictSize with hd | hd | hd
      · exact .inr (.inr (.inr (.inl ⟨hp, hc, hd, classify_reference hp hc hd⟩)))
      · exact .inr (.inr (.inr (.inr (.inl ⟨hp, hd, classify_new hp hc hd⟩))))
      · exact .inr (.inr (.inr (.inr (.inr ⟨hp, hd, classify_bad hp hc hd⟩))))
  · rintro (⟨hp, hc, rfl⟩ | ⟨hp, hc, rfl⟩ | ⟨hp, hc, rfl⟩ | ⟨hp, hc, hd, rfl⟩ | ⟨hp, hd, rfl⟩ | ⟨hp, hd, rfl⟩)
    · exact classify_first hp hc
    · exact classify_firstBad hp hc
    · exact classify_literal hp hc
    · exact classify_reference hp hc hd
    · exact classify_new hp (hd ▸ hlow) hd
    · exact classify_bad hp (hlow.trans hd.le) hd

end Sys2Proof.Machine
end

section
/-! The code unpacker (40_unpacker.md): one equation for a step on each chunk (R111 to R114), what each of them answers,
and the frame that all of them keep (R119). -/

namespace Sys2Proof.Machine

variable {s t : State}

/-! ### One equation for a step on each chunk -/

/-- What is left of the source begins with the chunk (R52, R110). -/
theorem nextChunk_of_drop {bytes : List Byte} (h : s.input.drop s.rp = bytes) : nextChunk s = bytes.take 3 :=
  congrArg (List.take 3) h

theorem nextChunk_of_exhausted (h : s.input.length ≤ s.rp) : nextChunk s = [] :=
  nextChunk_of_drop (List.drop_eq_nil_of_le h)

theorem step_fullGroup {b0 b1 b2 : Byte} (hq : s.quiet = true) (hp : s.phase = .unpack)
    (h : nextChunk s = [b0, b1, b2]) :
    step s = .next (cqAppend (assembleSecond b1 b2) (cqAppend (assembleFirst b0 b1) (fetchChunk s))) :=
  step_unpack hq hp ((congrArg decodeChunk h).trans (decode_threeBytes b0 b1 b2))

theorem step_tail {b0 b1 : Byte} (hq : s.quiet = true) (hp : s.phase = .unpack) (h : nextChunk s = [b0, b1]) :
    step s = .next (cqAppend (assembleTail b0 b1) (fetchChunk s)) :=
  step_unpack hq hp ((congrArg decodeChunk h).trans (decode_twoBytes b0 b1))

theorem step_danglingByte {b : Byte} (hq : s.quiet = true) (hp : s.phase = .unpack) (h : nextChunk s = [b]) :
    step s = .next (raiseError .invalidData
      { cause := .danglingByte, index := (fetchChunk s).rp - 1, value := b.toNat } (fetchChunk s)) :=
  step_unpack hq hp ((congrArg decodeChunk h).trans (decode_oneByte b))

theorem exec_unpk0_of_unpack (ho : s.op = some .unpack) : exec .unpk0 s = .next (finishRun s.cq.length s) :=
  if_pos ho

theorem exec_unpk0_of_other (ho : s.op ≠ some .unpack) : exec .unpk0 s = .next (enterDecode s) :=
  if_neg ho

theorem step_endOfStream (hq : s.quiet = true) (hp : s.phase = .unpack) (h : nextChunk s = []) :
    step s = exec .unpk0 (fetchChunk s) :=
  step_unpack hq hp ((congrArg decodeChunk h).trans decode_noBytes)

/-! ### The step on each chunk -/

/-- Settles O12: the step on the first three bytes, and the formulas of its two codes (R86). -/
theorem fullGroupStepAppendsTwoCodes : Obligations.FullGroupStepAppendsTwoCodes := by
  intro s b0 b1 b2 rest hq hp hin
  have hc : nextChunk s = [b0, b1, b2] := nextChunk_of_drop hin
  refine ⟨_, assembleFirst b0 b1, assembleSecond b1 b2, step_fullGroup hq hp hc,
    assembleFirst_formula b0 b1, assembleSecond_formula b1 b2, ?_⟩
  simp [hc, hp]

/-- Settles O13: the padding is no operand of the code's formula. -/
theorem tailStepAppendsOneCode : Obligations.TailStepAppendsOneCode := by
  intro s b0 b1 hq hp hin
  have hc : nextChunk s = [b0, b1] := nextChunk_of_drop hin
  refine ⟨_, assembleTail b0 b1, step_tail hq hp hc, assembleSecond_formula b0 b1, ?_⟩
  simp [hc, hp]

/-- Settles O14: the fetch has consumed the byte, so the cursor stands one past it and at the end of the source. -/
theorem danglingByteStepRaises : Obligations.DanglingByteStepRaises := by
  intro s b hq hp hin
  have hc : nextChunk s = [b] := nextChunk_of_drop hin
  have hend : s.rp + 1 = s.input.length := by
    have hleft : s.input.length - s.rp = 1 := by rw [← List.length_drop, hin, List.length_singleton]
    omega
  refine ⟨_, step_danglingByte hq hp hc, ?_⟩
  simpa [hc, outcome] using hend

/-- Settles O15: the running operation alone decides between the two ends of the loop. -/
theorem endOfStreamStepEndsTheUnpack : Obligations.EndOfStreamStepEndsTheUnpack := by
  intro s hq hp hend
  have hc : nextChunk s = [] := nextChunk_of_exhausted hend
  have hstep := step_endOfStream hq hp hc
  by_cases ho : s.op = some .unpack
  · refine ⟨_, hstep.trans (exec_unpk0_of_unpack ho), ?_⟩
    simp [hc, ho, outcome, resultOf]
  · refine ⟨_, hstep.trans (exec_unpk0_of_other ho), ?_⟩
    simp [hc, ho, outcome]

/-! ### The frame -/

/-- A quiet step of the unpack loop is one of the five of R110 to R114. -/
theorem unpackStep_of_step (hq : s.quiet = true) (hp : s.phase = .unpack) (hst : step s = .next t) :
    UnpackStep s t := by
  have hr : s.running = true := (running_iff s).2 (.inl hp)
  rcases quietStep_cases hq hst with ⟨hr', -⟩ | ⟨_, _, hr', -⟩ | ⟨-, hu⟩ | ⟨hp', -⟩
  · exact absurd (hr.symm.trans hr') (by decide)
  · exact absurd (hr.symm.trans hr') (by decide)
  · exact hu
  · exact absurd (hp.symm.trans hp') (by decide)

/-- Every field an unpack step may write; what is not listed is as it was. -/
theorem UnpackStep.frame (h : UnpackStep s t) :
    t = { s with
      rp := t.rp, chn := t.chn, b0 := t.b0, b1 := t.b1, b2 := t.b2, cq := t.cq
      phase := t.phase, err := t.err, errinfo := t.errinfo, outlen := t.outlen
      decStarted := t.decStarted, srcHeld := t.srcHeld, sinkHeld := t.sinkHeld } := by
  cases h with
  | group | tail | dangling | finish | handOver => rfl

/-- Only the dangling byte writes the error registers. -/
theorem UnpackStep.error_eq (h : UnpackStep s t) (hn : t.chn ≠ 1) : t.err = s.err ∧ t.errinfo = s.errinfo := by
  cases h with
  | group | tail | finish | handOver => exact ⟨rfl, rfl⟩
  | dangling b hc => exact absurd (congrArg List.length hc) hn

/-- Settles O17: every register it names is outside the frame's list, or in `UnpackStep.error_eq`. -/
theorem unpackerTouchesNoDecoderState : Obligations.UnpackerTouchesNoDecoderState := by
  intro s t hq hp hst
  have hu : UnpackStep s t := unpackStep_of_step hq hp hst
  rw [hu.frame]
  exact ⟨rfl, rfl, rfl, rfl, rfl, rfl, rfl, rfl, rfl, rfl, rfl, fun _ => rfl, hu.error_eq⟩

end Sys2Proof.Machine
end

section
/-! The selection of a decoder operation (30_encoding.md rule R88, 41_decoder.md rules R132 to R139), for every position
and every counter, also one that no run reaches. -/

namespace Sys2Proof.Machine

variable {pos dictSize : Nat} {c : Code}

/-- The six classes of R88, each with its condition and its operation. Beside `codeClassesPartition` it asks nothing of
the counter, so the classes from 256 up say so themselves. -/
inductive CodeClass (pos dictSize : Nat) (c : Code) : Instr → Prop
  | first (hp : pos = 0) (hc : c.toNat < 256) : CodeClass pos dictSize c (.dfirst (c.setWidth 8))
  | firstBad (hp : pos = 0) (hc : 256 ≤ c.toNat) : CodeClass pos dictSize c (.dfirstbad c)
  | literal (hp : 0 < pos) (hc : c.toNat < 256) : CodeClass pos dictSize c (.dlit (c.setWidth 8))
  | reference (hp : 0 < pos) (hc : 256 ≤ c.toNat) (hd : c.toNat < dictSize) : CodeClass pos dictSize c (.dref c)
  | new (hp : 0 < pos) (hc : 256 ≤ c.toNat) (hd : c.toNat = dictSize) : CodeClass pos dictSize c (.dnew c)
  | bad (hp : 0 < pos) (hc : 256 ≤ c.toNat) (hd : dictSize < c.toNat) : CodeClass pos dictSize c (.dbad c)

/-- Every code is in a class, and `classify` names it. -/
theorem codeClass_classify (pos dictSize : Nat) (c : Code) : CodeClass pos dictSize c (classify pos dictSize c) := by
  rcases Nat.eq_zero_or_pos pos with hp | hp <;> rcases Nat.lt_or_ge c.toNat 256 with hc | hc
  · exact classify_first hp hc ▸ .first hp hc
  · exact classify_firstBad hp hc ▸ .firstBad hp hc
  · exact classify_literal hp hc ▸ .literal hp hc
  · rcases Nat.lt_trichotomy c.toNat dictSize with hd | hd | hd
    · exact classify_reference hp hc hd ▸ .reference hp hc hd
    · exact classify_new hp hc hd ▸ .new hp hc hd
    · exact classify_bad hp hc hd ▸ .bad hp hc hd

/-- A code is in no class but the one `classify` names. -/
theorem CodeClass.classify_eq {i : Instr} (h : CodeClass pos dictSize c i) : classify pos dictSize c = i := by
  cases h with
  | first hp hc => exact classify_first hp hc
  | firstBad hp hc => exact classify_firstBad hp hc
  | literal hp hc => exact classify_literal hp hc
  | reference hp hc hd => exact classify_reference hp hc hd
  | new hp hc hd => exact classify_new hp hc hd
  | bad hp hc hd => exact classify_bad hp hc hd

/-- The decoder gives a code the operation of its class and no other (R88). -/
theorem decode_code_iff {i : Instr} :
    decode (.decoding pos dictSize) (.code c) = .ok i ↔ CodeClass pos dictSize c i := by
  rw [decode_code, Except.ok.injEq]
  exact ⟨fun h => h ▸ codeClass_classify pos dictSize c, CodeClass.classify_eq⟩

/-! ### The condition of each class, read from its operation -/

theorem codeClass_dfirst_iff {sym : Sym} :
    CodeClass pos dictSize c (.dfirst sym) ↔ pos = 0 ∧ c.toNat < 256 ∧ sym = c.setWidth 8 :=
  ⟨fun | .first hp hc => ⟨hp, hc, rfl⟩, fun ⟨hp, hc, hsym⟩ => hsym ▸ .first hp hc⟩

theorem codeClass_dlit_iff {sym : Sym} :
    CodeClass pos dictSize c (.dlit sym) ↔ 0 < pos ∧ c.toNat < 256 ∧ sym = c.setWidth 8 :=
  ⟨fun | .literal hp hc => ⟨hp, hc, rfl⟩, fun ⟨hp, hc, hsym⟩ => hsym ▸ .literal hp hc⟩

theorem codeClass_dref_iff {c' : Code} :
    CodeClass pos dictSize c (.dref c') ↔ 0 < pos ∧ 256 ≤ c.toNat ∧ c.toNat < dictSize ∧ c' = c :=
  ⟨fun | .reference hp hc hd => ⟨hp, hc, hd, rfl⟩, fun ⟨hp, hc, hd, rfl⟩ => .reference hp hc hd⟩

theorem codeClass_dnew_iff {c' : Code} :
    CodeClass pos dictSize c (.dnew c') ↔ 0 < pos ∧ 256 ≤ c.toNat ∧ c.toNat = dictSize ∧ c' = c :=
  ⟨fun | .new hp hc hd => ⟨hp, hc, hd, rfl⟩, fun ⟨hp, hc, hd, rfl⟩ => .new hp hc hd⟩

theorem codeClass_dbad_iff {c' : Code} :
    CodeClass pos dictSize c (.dbad c') ↔ 0 < pos ∧ 256 ≤ c.toNat ∧ dictSize < c.toNat ∧ c' = c :=
  ⟨fun | .bad hp hc hd => ⟨hp, hc, hd, rfl⟩, fun ⟨hp, hc, hd, rfl⟩ => .bad hp hc hd⟩

end Sys2Proof.Machine
end

section
/-! The dictionary decoder (41_decoder.md): its start (R132), the first code (R133), the three inserting operations with
their tail steps (R136 to R138, R140 to R144), the unknown code (R139) and the end (R145). -/

namespace Sys2Proof.Machine

/-! ### The start -/

/-- The decoder's start tells an empty sequence from any other, by its length alone (R90). -/
theorem decode_starting_dinit_iff (count : Nat) : decode (.starting count) .nothing = .ok .dinit ↔ 1 ≤ count := by
  cases count with
  | zero => exact ⟨nofun, nofun⟩
  | succ n => exact iff_of_true rfl (Nat.le_add_left 1 n)

theorem exec_dinit (s : State) : exec .dinit s = .next { s with dictSize := 256, decStarted := true } := rfl

/-- A key is valid exactly below the counter (R62). -/
theorem validKey_iff (k : Nat) (s : State) : validKey k s = true ↔ k < s.dictSize :=
  decide_eq_true_iff

/-- Settles O19: validity is the counter's, and what a base key reads is the ROM's, whatever the state. -/
theorem dinitMakesOnlyTheBaseValid : Obligations.DinitMakesOnlyTheBaseValid :=
  ⟨decode_starting_dinit_iff, fun s =>
    ⟨_, exec_dinit s, rfl, fun k => validKey_iff k _, baseAlphabetIsHardwired _⟩⟩

/-! ### The first code -/

/-- Settles O20: `exec_dfirst` is the next state, with the entry's fields written out. -/
theorem firstCodeIsItsSymbol : Obligations.FirstCodeIsItsSymbol :=
  ⟨fun _ _ _ _ => decode_code_iff.trans codeClass_dfirst_iff, fun s sym => exec_dfirst sym s⟩

/-! ### The tail steps -/

/-- Settles O33: the two branches of `tailCount_eq`. -/
theorem counterWrapsAtCapacity : Obligations.CounterWrapsAtCapacity := by
  refine fun s => ⟨fun hd => ?wraps, fun hd => ?counts⟩
  case wraps => rw [tailCount_eq, nextSize, nextResets, if_pos hd, if_pos hd]
  case counts => rw [tailCount_eq, nextSize, nextResets, if_neg hd, if_neg hd]

/-- T2's condition, as R141 tests it: on the counter already incremented. -/
theorem nextSize_eq (d : Nat) : nextSize d = if d + 1 = 4096 then 256 else d + 1 := by
  simp [nextSize]

theorem nextResets_eq (d n : Nat) : nextResets d n = if d + 1 = 4096 then n + 1 else n := by
  simp [nextResets]

/-- T1 writes the one location the counter points at (R140). -/
theorem ramLookup_afterStep (p e : Entry) (s : State) (k : Nat) :
    ramLookup k (afterStep p e s).dictRam
      = if k = s.dictSize then some (p.snoc e.first) else ramLookup k s.dictRam :=
  ramLookup_ramInsert k s.dictSize (p.snoc e.first) s.dictRam

/-- What the four tail steps do to the registers: T2 to the counters, T3 to the text, T4 to `prev` (R141 to R143). -/
theorem afterStep_eq (p e : Entry) (s : State) :
    afterStep p e s = { s with
      cur := some e, prev := some e
      out := s.out ++ e.toStr
      dictSize := if s.dictSize + 1 = 4096 then 256 else s.dictSize + 1
      nreset := if s.dictSize + 1 = 4096 then s.nreset + 1 else s.nreset
      dictRam := (afterStep p e s).dictRam } := by
  rw [← nextSize_eq, ← nextResets_eq]
  rfl

/-- The common end of the three inserting operations (R144): one that completes with `e` has done the four tail
steps and nothing else. -/
theorem exists_next_of_afterStep {i : Instr} {s : State} {p e : Entry} (h : exec i s = .next (afterStep p e s)) :
    ∃ t : State, exec i s = .next t
      ∧ t = { s with
          cur := some e, prev := some e
          out := s.out ++ e.toStr
          dictSize := if s.dictSize + 1 = 4096 then 256 else s.dictSize + 1
          nreset := if s.dictSize + 1 = 4096 then s.nreset + 1 else s.nreset
          dictRam := t.dictRam }
      ∧ ∀ k, ramLookup k t.dictRam = if k = s.dictSize then some (p.snoc e.first) else ramLookup k s.dictRam :=
  ⟨_, h, afterStep_eq p e s, ramLookup_afterStep p e s⟩

/-! ### The inserting operations -/

/-- Settles O22: the tail steps with the symbol's own entry. -/
theorem literalCodeStep : Obligations.LiteralCodeStep := by
  refine ⟨fun _ _ _ _ => decode_code_iff.trans codeClass_dlit_iff, fun s sym p hp hlow hhigh => ?_⟩
  have h := exec_dlit sym ⟨hlow, hhigh⟩
  rw [readPrev_eq hp] at h
  exact exists_next_of_afterStep h

/-- Settles O23: the tail steps with the entry read; the code is from 256 to below the counter, so the counter is in
its range. -/
theorem referenceCodeStep : Obligations.ReferenceCodeStep := by
  refine ⟨fun _ _ _ _ => decode_code_iff.trans codeClass_dref_iff, fun s c p e hp hhigh hc hv he => ?_⟩
  have h := exec_dref ⟨hc.trans hv.le, hhigh⟩ hc hv he
  rw [readPrev_eq hp] at h
  exact exists_next_of_afterStep h

/-- Settles O24: the tail steps with `prev ++ first(prev)`, which no location is read for. -/
theorem newCodeStep : Obligations.NewCodeStep := by
  refine ⟨fun _ _ _ _ => decode_code_iff.trans codeClass_dnew_iff, fun s c p hp hlow hhigh => ?_⟩
  have h := exec_dnew c ⟨hlow, hhigh⟩
  rw [readPrev_eq hp] at h
  exact exists_next_of_afterStep h

/-! ### The unknown code -/

theorem exec_dbad (code : Code) (s : State) :
    exec (.dbad code) s
      = .next (raiseError .unknownCode { cause := .codeBeyond, index := s.ci - 1, value := code.toNat } s) := rfl

/-- The host sees the error that was raised (R175, R197). -/
@[simp] theorem outcome_raiseError (e : Err) (info : ErrInfo) (s : State) :
    outcome (raiseError e info s) = some (.fail e) := rfl

/-- Settles O27: `DBAD` is `raiseError` alone, so no tail step is reached. -/
theorem unknownCodeRaises : Obligations.UnknownCodeRaises := by
  refine ⟨fun _ _ _ _ => decode_code_iff.trans codeClass_dbad_iff, fun s code => ⟨_, exec_dbad code s, ?_⟩⟩
  simp only [raiseError_phase, raiseError_err, raiseError_errinfo, outcome_raiseError, raiseError_dictRam,
    raiseError_dictSize, raiseError_prev, raiseError_cur, raiseError_out, and_self]

/-! ### The end of the codes -/

theorem exec_dend (s : State) : exec .dend s = .next (finishRun s.out.length (sinkWrite s)) := rfl

/-- A write to the sink, done or not, touches nothing but the log of the sinks (R174). -/
theorem sinkWrite_eq (s : State) : sinkWrite s = { s with sinkLog := (sinkWrite s).sinkLog } := by
  unfold sinkWrite
  split <;> rfl

@[simp] theorem sinkWrite_out (s : State) : (sinkWrite s).out = s.out := by
  rw [sinkWrite_eq]

@[simp] theorem sinkWrite_op (s : State) : (sinkWrite s).op = s.op := by
  rw [sinkWrite_eq]

/-- The host sees the result of the run that ended (R35, R175). -/
theorem outcome_finishRun (n : Nat) (s : State) : outcome (finishRun n s) = some (.ok (resultOf s)) := rfl

/-- `DECODE` and `DECOMPRESS` answer the text (R35). -/
theorem resultOf_eq_text {s : State} (ho : s.op = some .decode ∨ s.op = some .decompress) :
    resultOf s = .text s.out := by
  rcases ho with ho | ho <;> simp [resultOf, ho]

/-- Settles O30: the write to a sink, which `DEND` begins with, changes neither the text nor the operation. -/
theorem endOfCodesReturnsTheText : Obligations.EndOfCodesReturnsTheText := by
  refine ⟨fun _ => step_end, fun s => ⟨_, exec_dend s, rfl, rfl, sinkWrite_out s, fun ho => ?_⟩⟩
  have hop : (sinkWrite s).op = some .decode ∨ (sinkWrite s).op = some .decompress := by rwa [sinkWrite_op]
  rw [outcome_finishRun, resultOf_eq_text hop, sinkWrite_out]

end Sys2Proof.Machine
end

section
/-! The block outside a run (42_host_operations.md rule R180): it has no operation to perform, and with nothing asked of
it a step answers the state it found. -/

namespace Sys2Proof.Machine

/-- The converse of `fetchRun_wait`. -/
theorem fetchRun_of_not_running {s : State} (hr : s.running = false) : fetchRun s = .wait s := by
  unfold fetchRun
  cases hp : s.phase with
  | idle => rfl
  | unpack => simp [State.running, hp] at hr
  | decode => simp [State.running, hp] at hr
  | done => rfl
  | failed => rfl

theorem fetch_of_host_nil {s : State} (hh : s.host = []) : fetch s = fetchRun s := by
  rw [fetch, hh]

theorem step_of_not_running {s : State} (hr : s.running = false) (hh : s.host = []) : step s = .next s := by
  rw [step, fetch_of_host_nil hh, fetchRun_of_not_running hr]

/-- An error ends the run (R197). -/
@[simp] theorem raiseError_running (e : Err) (info : ErrInfo) (s : State) :
    (raiseError e info s).running = false := rfl

/-- Settles O60: the block does not run after an error, and the host's queue is the one from before it. -/
theorem failedBlockWaits : Obligations.FailedBlockWaits := fun s e info =>
  ⟨raiseError_host s e info, fun hh =>
    step_of_not_running (raiseError_running e info s) ((raiseError_host s e info).trans hh)⟩

end Sys2Proof.Machine
end

section
/-! The exception path (60_exceptions.md rule R197). -/

namespace Sys2Proof.Machine

/-- Settles O29: the four registers `raise` writes; the outcome and the end of the run follow from PHASE and ERR. -/
theorem raisingEndsTheRun : Obligations.RaisingEndsTheRun := fun s e info =>
  ⟨raiseError_err s e info, raiseError_errinfo s e info, raiseError_outlen s e info, raiseError_phase s e info,
    outcome_raiseError e info s, raiseError_running e info s⟩

end Sys2Proof.Machine
end

section
/-! The per-call initialisation (70_reset_and_hazards.md rule R230): a host operation begins with it, and sets beside it
only its operands, its claims and the phase (R171 to R174). -/

namespace Sys2Proof.Machine

variable {s : State} {c : HostCmd}

/-- The state a command leaves the block in when no run is in progress; `exec_toInstr` ties it to `exec`. -/
def startOf : HostCmd → State → State
  | .unpack src, s => startUnpacking .unpack src s
  | .decode codes, s => startDecoding codes s
  | .decompress src, s => startUnpacking .decompress src s
  | .extract src sink, s => { startUnpacking .extract src s with sinkHeld := some sink }

/-- Every command completes when no run is in progress; the converse is `exec_command_cases`. -/
theorem exec_toInstr (c : HostCmd) (hr : s.running = false) : exec c.toInstr s = .next (startOf c s) := by
  cases c with
  | unpack src => exact beginRun_eq_next (startOf (.unpack src)) hr
  | decode codes => exact beginRun_eq_next (startOf (.decode codes)) hr
  | decompress src => exact beginRun_eq_next (startOf (.decompress src)) hr
  | extract src sink => exact beginRun_eq_next (startOf (.extract src sink)) hr

/-- Every field a command may set; what is not listed is at the value the initialisation gives it. -/
theorem startOf_frame (c : HostCmd) (s : State) :
    startOf c s = { initRun s with
      input := (startOf c s).input, cq := (startOf c s).cq, phase := (startOf c s).phase, op := (startOf c s).op
      srcHeld := (startOf c s).srcHeld, sinkHeld := (startOf c s).sinkHeld } := by
  cases c with
  | unpack | decode | decompress | extract => rfl

/-- A `DECODE` alone brings codes with it (R172). -/
theorem startOf_cq_of_not_decode (hc : ∀ codes, c ≠ .decode codes) : (startOf c s).cq = [] := by
  cases c with
  | decode codes => exact absurd rfl (hc codes)
  | unpack | decompress | extract => rfl

theorem startOf_cq_of_decode {codes : List Code} (hc : c = .decode codes) : (startOf c s).cq = codes := by
  subst hc
  exact startDecoding_cq s codes

/-- Settles O38: every register but the code sequence is outside the frame's list, so it is as `initRun` leaves it; the
counter among them says which keys are valid (R62). -/
theorem everyOperationInitialises : Obligations.EveryOperationInitialises := by
  refine fun s c hr => ⟨startOf c s, exec_toInstr c hr, ?_⟩
  rw [startOf_frame]
  exact ⟨rfl, rfl, rfl, rfl, rfl, rfl, rfl, rfl, rfl, rfl, rfl, rfl, rfl, rfl, rfl,
    startOf_cq_of_not_decode, fun _ => startOf_cq_of_decode, fun k => validKey_iff k _⟩

end Sys2Proof.Machine
end

section
/-! The round trip between operations and words (30_encoding.md rules R81 to R97): the packed bytes of a code and the
assembly formulas are inverse, and each context tells its operations apart. -/

namespace Sys2Proof.Machine

/-! ### The values of the bytes that hold codes -/

theorem pairFirstByte_toNat (a : Code) : ((a >>> 4).setWidth 8).toNat = a.toNat / 16 := by
  rw [BitVec.toNat_setWidth, BitVec.toNat_ushiftRight, Nat.shiftRight_eq_div_pow]
  omega

/-- The byte above a code's lowest eight bits: four bits from elsewhere, then the code's four highest. -/
theorem nibbleByte_toNat {high : Byte} (h : high.toNat < 16) (b : Code) :
    ((high <<< 4) ||| (b >>> 8).setWidth 8).toNat = high.toNat * 16 + b.toNat / 256 := by
  have low : ((b >>> 8).setWidth 8).toNat = b.toNat / 256 := by
    rw [BitVec.toNat_setWidth, BitVec.toNat_ushiftRight, Nat.shiftRight_eq_div_pow]
    omega
  have fits : high.toNat <<< 4 < 2 ^ 8 := by
    rw [Nat.shiftLeft_eq]
    omega
  have small : b.toNat / 256 < 2 ^ 4 := by omega
  rw [BitVec.toNat_or, BitVec.toNat_shiftLeft, Nat.mod_eq_of_lt fits, low, ← Nat.shiftLeft_add_eq_or_of_lt small,
    Nat.shiftLeft_eq]

theorem codeLowNibble_toNat (a : Code) : ((a &&& 0x00F#12).setWidth 8).toNat = a.toNat % 16 := by
  have h : (a &&& 0x00F#12).toNat = a.toNat % 16 := Nat.and_two_pow_sub_one_eq_mod a.toNat 4
  rw [BitVec.toNat_setWidth, h]
  omega

theorem pairMiddleByte_toNat (a b : Code) :
    (((a &&& 0x00F#12).setWidth 8 <<< 4) ||| (b >>> 8).setWidth 8).toNat = a.toNat % 16 * 16 + b.toNat / 256 := by
  have h := codeLowNibble_toNat a
  rw [nibbleByte_toNat (by omega), h]

theorem tailFirstByte_toNat (pad : BitVec 4) (a : Code) :
    ((pad.setWidth 8 <<< 4) ||| (a >>> 8).setWidth 8).toNat = pad.toNat * 16 + a.toNat / 256 := by
  have h : (pad.setWidth 8).toNat = pad.toNat := BitVec.toNat_setWidth_of_le (by decide)
  rw [nibbleByte_toNat (by omega), h]

theorem lastByte_toNat (b : Code) : (b.setWidth 8).toNat = b.toNat % 256 :=
  BitVec.toNat_setWidth 8 b

theorem tailPad_toNat (b : Byte) : (tailPad b).toNat = b.toNat / 16 := by
  rw [tailPad, BitVec.extractLsb'_toNat, Nat.shiftRight_eq_div_pow]
  omega

/-! ### Packing and assembling are inverse -/

/-- The first two bytes of a packed pair assemble to its first code. -/
theorem assembleFirst_of_toNat {b0 b1 : Byte} {a b : Code} (h0 : b0.toNat = a.toNat / 16)
    (h1 : b1.toNat = a.toNat % 16 * 16 + b.toNat / 256) : assembleFirst b0 b1 = a := by
  apply BitVec.eq_of_toNat_eq
  rw [assembleFirst_toNat, h0, h1]
  omega

/-- Two bytes whose lowest twelve bits are a code assemble to it, whatever stands above. -/
theorem assembleSecond_of_toNat {n : Nat} {b1 b2 : Byte} {b : Code} (h1 : b1.toNat = n * 16 + b.toNat / 256)
    (h2 : b2.toNat = b.toNat % 256) : assembleSecond b1 b2 = b := by
  apply BitVec.eq_of_toNat_eq
  rw [assembleSecond_toNat, h1, h2]
  omega

theorem tailPad_of_toNat {b0 : Byte} {pad : BitVec 4} {a : Code} (h0 : b0.toNat = pad.toNat * 16 + a.toNat / 256) :
    tailPad b0 = pad := by
  apply BitVec.eq_of_toNat_eq
  rw [tailPad_toNat, h0]
  omega

theorem decodeChunk_packPair (a b : Code) : decodeChunk (packPair a b) = .ok (.unpk3 a b) := by
  rw [packPair, decodeChunk, assembleFirst_of_toNat (pairFirstByte_toNat a) (pairMiddleByte_toNat a b),
    assembleSecond_of_toNat (pairMiddleByte_toNat a b) (lastByte_toNat b)]

theorem decodeChunk_packTail (pad : BitVec 4) (a : Code) : decodeChunk (packTail pad a) = .ok (.unpk2 pad a) := by
  rw [packTail, decodeChunk, tailPad_of_toNat (tailFirstByte_toNat pad a), assembleTail_eq,
    assembleSecond_of_toNat (tailFirstByte_toNat pad a) (lastByte_toNat a)]

theorem packPair_assemble (b0 b1 b2 : Byte) : packPair (assembleFirst b0 b1) (assembleSecond b1 b2) = [b0, b1, b2] := by
  have h0 : ((assembleFirst b0 b1) >>> 4).setWidth 8 = b0 := by
    apply BitVec.eq_of_toNat_eq
    rw [pairFirstByte_toNat, assembleFirst_toNat]
    omega
  have h1 : ((assembleFirst b0 b1 &&& 0x00F#12).setWidth 8 <<< 4) ||| (assembleSecond b1 b2 >>> 8).setWidth 8 = b1 := by
    apply BitVec.eq_of_toNat_eq
    rw [pairMiddleByte_toNat, assembleFirst_toNat, assembleSecond_toNat]
    omega
  have h2 : (assembleSecond b1 b2).setWidth 8 = b2 := by
    apply BitVec.eq_of_toNat_eq
    rw [lastByte_toNat, assembleSecond_toNat]
    omega
  rw [packPair, h0, h1, h2]

theorem packTail_assemble (b0 b1 : Byte) : packTail (tailPad b0) (assembleTail b0 b1) = [b0, b1] := by
  have h0 : ((tailPad b0).setWidth 8 <<< 4) ||| (assembleTail b0 b1 >>> 8).setWidth 8 = b0 := by
    apply BitVec.eq_of_toNat_eq
    rw [tailFirstByte_toNat, tailPad_toNat, assembleTail_eq, assembleSecond_toNat]
    omega
  have h1 : (assembleTail b0 b1).setWidth 8 = b1 := by
    apply BitVec.eq_of_toNat_eq
    rw [lastByte_toNat, assembleTail_eq, assembleSecond_toNat]
    omega
  rw [packTail, h0, h1]

/-! ### A symbol as a code -/

@[simp] theorem symCode_toNat (sym : Sym) : (sym.setWidth 12).toNat = sym.toNat :=
  BitVec.toNat_setWidth_of_le (by decide)

theorem symCode_lt (sym : Sym) : (sym.setWidth 12).toNat < 256 := by
  rw [symCode_toNat]
  exact sym.isLt

@[simp] theorem symCode_setWidth (sym : Sym) : (sym.setWidth 12).setWidth 8 = sym := by
  apply BitVec.eq_of_toNat_eq
  rw [lastByte_toNat, symCode_toNat]
  omega

theorem baseCode_setWidth {c : Code} (hc : c.toNat < 256) : (c.setWidth 8).setWidth 12 = c := by
  apply BitVec.eq_of_toNat_eq
  rw [symCode_toNat, lastByte_toNat]
  omega

/-! ### The contexts -/

theorem Context.startsWith_iff {p : Nat → Bool} {ctx : Context} :
    ctx.startsWith p = true ↔ ∃ count, ctx = .starting count ∧ p count = true := by
  cases ctx <;> simp [Context.startsWith]

theorem Context.codeAt_iff {p : Nat → Nat → Bool} {ctx : Context} :
    ctx.codeAt p = true ↔ ∃ pos dictSize, ctx = .decoding pos dictSize ∧ p pos dictSize = true := by
  cases ctx <;> simp [Context.codeAt]

/-- A code's operation, in a context with a code next, decodes back when the code is in its class. -/
theorem decode_encode_of_codeClass {pos dictSize : Nat} {c : Code} {i : Instr} (he : encode i = .code c)
    (h : CodeClass pos dictSize c i) : decode (.decoding pos dictSize) (encode i) = .ok i := by
  rw [he]
  exact decode_code_iff.2 h

/-- Settles O3: each context leaves one case to check per operation; the packed bytes by the inverse laws, the codes by
their class. -/
theorem encodedOperationDecodesBack : Obligations.EncodedOperationDecodesBack := by
  intro ctx i h
  cases i with
  | unpk3 code1 code2 =>
    obtain rfl : ctx = .unpacking := beq_iff_eq.1 h
    exact decodeChunk_packPair code1 code2
  | unpk2 pad code =>
    obtain rfl : ctx = .unpacking := beq_iff_eq.1 h
    exact decodeChunk_packTail pad code
  | unpk1 | unpk0 =>
    obtain rfl : ctx = .unpacking := beq_iff_eq.1 h
    rfl
  | dempty =>
    obtain ⟨count, rfl, hc⟩ := Context.startsWith_iff.1 h
    obtain rfl : count = 0 := beq_iff_eq.1 hc
    rfl
  | dinit =>
    obtain ⟨count, rfl, hc⟩ := Context.startsWith_iff.1 h
    exact (decode_starting_dinit_iff count).2 (of_decide_eq_true hc)
  | dfirst sym =>
    obtain ⟨pos, dictSize, rfl, hp⟩ := Context.codeAt_iff.1 h
    exact decode_encode_of_codeClass rfl
      (codeClass_dfirst_iff.2 ⟨beq_iff_eq.1 hp, symCode_lt sym, (symCode_setWidth sym).symm⟩)
  | dlit sym =>
    obtain ⟨pos, dictSize, rfl, hp⟩ := Context.codeAt_iff.1 h
    exact decode_encode_of_codeClass rfl
      (codeClass_dlit_iff.2 ⟨of_decide_eq_true hp, symCode_lt sym, (symCode_setWidth sym).symm⟩)
  | dfirstbad code =>
    obtain ⟨pos, dictSize, rfl, hp⟩ := Context.codeAt_iff.1 h
    simp only [Bool.and_eq_true, beq_iff_eq, decide_eq_true_eq] at hp
    exact decode_encode_of_codeClass rfl (.firstBad hp.1 hp.2)
  | dref code =>
    obtain ⟨pos, dictSize, rfl, hp⟩ := Context.codeAt_iff.1 h
    simp only [Bool.and_eq_true, decide_eq_true_eq] at hp
    obtain ⟨⟨hpos, hc⟩, hd⟩ := hp
    exact decode_encode_of_codeClass rfl (.reference hpos hc hd)
  | dnew code =>
    obtain ⟨pos, dictSize, rfl, hp⟩ := Context.codeAt_iff.1 h
    simp only [Bool.and_eq_true, beq_iff_eq, decide_eq_true_eq] at hp
    obtain ⟨⟨hpos, hc⟩, hd⟩ := hp
    exact decode_encode_of_codeClass rfl (.new hpos hc hd)
  | dbad code =>
    obtain ⟨pos, dictSize, rfl, hp⟩ := Context.codeAt_iff.1 h
    simp only [Bool.and_eq_true, decide_eq_true_eq] at hp
    obtain ⟨⟨hpos, hc⟩, hd⟩ := hp
    exact decode_encode_of_codeClass rfl (.bad hpos hc hd)
  | dend =>
    obtain rfl : ctx = .ended := beq_iff_eq.1 h
    rfl
  | unpack | decode | decompress | extract =>
    obtain rfl : ctx = .waiting := beq_iff_eq.1 h
    rfl

/-! ### What decodes -/

/-- A decoded chunk, its operation encodes to the same bytes and is the unpack loop's. -/
theorem encode_of_decodeChunk {bytes : List Byte} {i : Instr} (h : decodeChunk bytes = .ok i) :
    encode i = .chunk bytes ∧ Context.unpacking.selects i = true ∧ i.wf = true := by
  match bytes, h with
  | [], h | [_], h =>
    cases h
    exact ⟨rfl, rfl, rfl⟩
  | [b0, b1], h =>
    cases h
    exact ⟨congrArg Words.chunk (packTail_assemble b0 b1), rfl, rfl⟩
  | [b0, b1, b2], h =>
    cases h
    exact ⟨congrArg Words.chunk (packPair_assemble b0 b1 b2), rfl, rfl⟩

/-- A classified code, its operation encodes to the same code and is selected at its position and counter. -/
theorem encode_of_codeClass {pos dictSize : Nat} {c : Code} {i : Instr} (h : CodeClass pos dictSize c i) :
    encode i = .code c ∧ (Context.decoding pos dictSize).selects i = true
    ∧ (256 ≤ dictSize ∧ dictSize ≤ 4095 → i.wf = true) := by
  cases h with
  | first hp hc => exact ⟨congrArg Words.code (baseCode_setWidth hc), beq_iff_eq.2 hp, fun _ => rfl⟩
  | firstBad hp hc => simp [encode, Context.selects, Context.codeAt, Instr.wf, hp, hc]
  | literal hp hc => exact ⟨congrArg Words.code (baseCode_setWidth hc), decide_eq_true hp, fun _ => rfl⟩
  | reference hp hc hd =>
    have below : 256 ≤ dictSize ∧ dictSize ≤ 4095 → c.toNat + 1 < 4096 := by omega
    simpa [encode, Context.selects, Context.codeAt, Instr.wf, hp, hc, hd] using below
  | new hp hc hd => simp [encode, Context.selects, Context.codeAt, Instr.wf, hp, hd, hd ▸ hc]
  | bad hp hc hd =>
    have above : 256 ≤ dictSize ∧ dictSize ≤ 4095 → 256 < c.toNat := by omega
    simpa [encode, Context.selects, Context.codeAt, Instr.wf, hp, hc, hd] using above

/-- Settles O4: the decoder's five contexts, each with the words that belong to it. -/
theorem decodedWordsEncodeBack : Obligations.DecodedWordsEncodeBack := by
  intro ctx w i h
  unfold decode at h
  split at h
  case h_1 bytes =>
    obtain ⟨he, hs, hw⟩ := encode_of_decodeChunk h
    exact ⟨he, hs, fun _ => hw⟩
  case h_2 count =>
    cases h
    cases count with
    | zero | succ => exact ⟨rfl, by simp [Context.selects, Context.startsWith], fun _ => rfl⟩
  case h_3 pos dictSize c =>
    obtain ⟨he, hs, hw⟩ := encode_of_codeClass (decode_code_iff.1 h)
    exact ⟨he, hs, fun hd => hw (hd pos dictSize rfl)⟩
  case h_4 =>
    cases h
    exact ⟨rfl, rfl, fun _ => rfl⟩
  case h_5 c =>
    cases h
    cases c with
    | unpack | decode | decompress | extract => exact ⟨rfl, rfl, fun _ => rfl⟩
  case h_6 => cases h

/-! ### Packed sequences -/

theorem unpackClosed_packTail (pad : BitVec 4) (a : Code) : unpackClosed (packTail pad a) = .ok [a] := by
  rw [packTail, unpackClosed, assembleTail_eq, assembleSecond_of_toNat (tailFirstByte_toNat pad a) (lastByte_toNat a)]

theorem unpackClosed_packPair {rest : List Byte} {codes : List Code} (a b : Code) (h : unpackClosed rest = .ok codes) :
    unpackClosed (packPair a b ++ rest) = .ok (a :: b :: codes) := by
  rw [packPair, List.cons_append, List.cons_append, List.cons_append, List.nil_append, unpackClosed, h,
    assembleFirst_of_toNat (pairFirstByte_toNat a) (pairMiddleByte_toNat a b),
    assembleSecond_of_toNat (pairMiddleByte_toNat a b) (lastByte_toNat b)]

/-- Settles O11: two codes at a time, by the inverse law of a group; a last one by that of a tail. -/
theorem packedCodesUnpackBack : Obligations.PackedCodesUnpackBack := by
  intro codes
  induction codes using pack.induct with
  | case1 => exact ⟨rfl, by decide⟩
  | case2 a => exact ⟨unpackClosed_packTail 0#4 a, (by decide : (2 : Nat) % 3 ≠ 1)⟩
  | case3 a b rest ih =>
    obtain ⟨hcodes, hlen⟩ := ih
    refine ⟨unpackClosed_packPair a b hcodes, ?_⟩
    have hgroup : (pack (a :: b :: rest)).length = 3 + (pack rest).length := by
      rw [pack, List.length_append]
      rfl
    omega

/-! ### The words of the specification -/

/-- Settles O9: ten closed computations of the decoder. -/
theorem specWordsDecode : Obligations.SpecWordsDecode := by
  unfold Obligations.SpecWordsDecode
  decide

/-- Settles O51: a code of class `DREF` is below the counter, which is at most 4095. -/
theorem lastLocationIsNeverRead : Obligations.LastLocationIsNeverRead := by
  intro s pos c c' hinv h
  obtain ⟨-, -, hd, rfl⟩ := codeClass_dref_iff.1 (decode_code_iff.1 h)
  have := hinv.counter.2
  omega

end Sys2Proof.Machine
end

section
/-! The closed unpacker (40_unpacker.md rule R115): a full group adds its two codes in front, so lengths and indices go
up by whole groups. -/

namespace Sys2Proof.Machine

variable {b0 b1 b2 : Byte} {rest src : List Byte} {codes : List Code}

/-! ### One group more -/

theorem unpackClosed_group_ok (h : unpackClosed rest = .ok codes) :
    unpackClosed (b0 :: b1 :: b2 :: rest) = .ok (assembleFirst b0 b1 :: assembleSecond b1 b2 :: codes) := by
  rw [unpackClosed, h]

theorem unpackClosed_group_error {e : Err} (h : unpackClosed rest = .error e) :
    unpackClosed (b0 :: b1 :: b2 :: rest) = .error e := by
  rw [unpackClosed, h]

/-- The codes of a stream that begins with a full group are that group's two and those of what follows it. -/
theorem unpackClosed_group_inv (h : unpackClosed (b0 :: b1 :: b2 :: rest) = .ok codes) :
    ∃ later, unpackClosed rest = .ok later ∧ codes = assembleFirst b0 b1 :: assembleSecond b1 b2 :: later := by
  cases hr : unpackClosed rest with
  | error e => simp [unpackClosed_group_error hr] at h
  | ok later =>
    rw [unpackClosed_group_ok hr, Except.ok.injEq] at h
    exact ⟨later, rfl, h.symm⟩

theorem length_group_mod : (b0 :: b1 :: b2 :: rest).length % 3 = rest.length % 3 :=
  Nat.add_mod_right rest.length 3

theorem length_group_div : (b0 :: b1 :: b2 :: rest).length / 3 = rest.length / 3 + 1 :=
  Nat.add_div_right rest.length (Nat.zero_lt_succ 2)

/-! ### What the length decides -/

theorem unpackClosed_dangling (h : src.length % 3 = 1) : unpackClosed src = .error .invalidData := by
  induction src using unpackClosed.induct with
  | case1 | case3 => simp at h
  | case2 => rfl
  | case4 b0 b1 b2 rest _ _ ih | case5 b0 b1 b2 rest _ _ ih =>
    exact unpackClosed_group_error (ih (length_group_mod.symm.trans h))

theorem exists_unpackClosed_ok (h : src.length % 3 ≠ 1) : ∃ codes, unpackClosed src = .ok codes := by
  induction src using unpackClosed.induct with
  | case1 | case3 => exact ⟨_, rfl⟩
  | case2 => simp at h
  | case4 b0 b1 b2 rest _ _ ih | case5 b0 b1 b2 rest _ _ ih =>
    obtain ⟨codes, hr⟩ := ih (length_group_mod ▸ h)
    exact ⟨_, unpackClosed_group_ok hr⟩

theorem length_unpackClosed (h : unpackClosed src = .ok codes) :
    codes.length = 2 * (src.length / 3) + (if src.length % 3 = 2 then 1 else 0) := by
  induction src using unpackClosed.induct generalizing codes with
  | case1 | case3 =>
    cases h
    simp
  | case2 => cases h
  | case4 b0 b1 b2 rest _ _ ih | case5 b0 b1 b2 rest _ _ ih =>
    obtain ⟨later, hr, rfl⟩ := unpackClosed_group_inv h
    rw [length_group_mod, length_group_div, List.length_cons, List.length_cons, ih hr]
    omega

/-! ### What the index decides -/

/-- Codes `2i` and `2i + 1` are those of bytes `3i` to `3i + 2`. -/
theorem unpackClosed_codes_of_group (h : unpackClosed src = .ok codes) (i : Nat) (h0 : src[3 * i]? = some b0)
    (h1 : src[3 * i + 1]? = some b1) (h2 : src[3 * i + 2]? = some b2) :
    codes[2 * i]? = some (assembleFirst b0 b1) ∧ codes[2 * i + 1]? = some (assembleSecond b1 b2) := by
  have hlen : 3 * i + 2 < src.length := (List.getElem?_eq_some_iff.1 h2).1
  induction src using unpackClosed.induct generalizing codes i with
  | case1 | case2 | case3 =>
    simp only [List.length_cons, List.length_nil] at hlen
    omega
  | case4 c0 c1 c2 rest _ _ ih | case5 c0 c1 c2 rest _ _ ih =>
    obtain ⟨later, hr, rfl⟩ := unpackClosed_group_inv h
    cases i with
    | zero =>
      cases h0
      cases h1
      cases h2
      exact ⟨rfl, rfl⟩
    | succ i => exact ih hr i h0 h1 h2 (by simp only [List.length_cons] at hlen; omega)

/-- The last code of a stream with two bytes left is the tail's. -/
theorem unpackClosed_code_of_tail (h : unpackClosed src = .ok codes) (hm : src.length % 3 = 2)
    (h0 : src[3 * (src.length / 3)]? = some b0) (h1 : src[3 * (src.length / 3) + 1]? = some b1) :
    codes[2 * (src.length / 3)]? = some (assembleTail b0 b1) := by
  induction src using unpackClosed.induct generalizing codes with
  | case1 | case2 => simp at hm
  | case3 c0 c1 =>
    cases h
    obtain rfl : c0 = b0 := by simpa using h0
    obtain rfl : c1 = b1 := by simpa using h1
    simp
  | case4 c0 c1 c2 rest _ _ ih | case5 c0 c1 c2 rest _ _ ih =>
    obtain ⟨later, hr, rfl⟩ := unpackClosed_group_inv h
    rw [length_group_div] at h0 h1 ⊢
    exact ih hr (length_group_mod ▸ hm) h0 h1

/-- Settles O56: the length decides the outcome and the number of codes, the index each code. -/
theorem unpackedCodesByIndex : Obligations.UnpackedCodesByIndex := by
  refine fun src => ⟨unpackClosed_dangling, fun hm => ?_⟩
  obtain ⟨codes, h⟩ := exists_unpackClosed_ok hm
  exact ⟨codes, h, length_unpackClosed h, fun i _ _ _ _ => unpackClosed_codes_of_group h i,
    fun _ _ => unpackClosed_code_of_tail h⟩

end Sys2Proof.Machine
end

section
/-! The fetch in front of every step (40_unpacker.md rule R110, 41_decoder.md rule R130, 42_host_operations.md rules
R178 and R180), and the events of the host. -/

namespace Sys2Proof.Machine

variable {s t : State}

theorem decode_starting (count : Nat) :
    decode (.starting count) .nothing = .ok (if count = 0 then .dempty else .dinit) := rfl

/-- Settles O1: the five places where a step finds its words, each with its equation. -/
theorem stepRunsTheDecodedOperation : Obligations.StepRunsTheDecodedOperation := by
  refine fun s => ⟨?unpacking, ?decoding, ?starting, ?ending, ?waiting⟩
  case unpacking =>
    rintro bytes i hq hp rfl h
    exact step_unpack hq hp h
  case decoding =>
    intro c i hq hp hs hc h
    rw [decode_code, Except.ok.injEq] at h
    exact h ▸ step_code hq hp hs hc
  case starting =>
    intro i hq hp hs h
    rw [decode_starting, Except.ok.injEq] at h
    exact h ▸ step_start hq hp hs
  case ending =>
    rintro i hq hp hs he hn ⟨⟩
    exact step_end hq hp hs he hn
  case waiting =>
    rintro c i rest hr hh ⟨⟩
    exact step_command hr hh

/-- While a run is in progress a quiet host changes nothing of the fetch (R178). -/
theorem fetch_of_quiet (hq : s.quiet = true) (hr : s.running = true) : fetch s = fetchRun s := by
  cases hh : s.host with
  | nil => exact fetch_of_host_nil hh
  | cons ev rest =>
    cases ev with
    | start c => simp [fetch, hh, hr]
    | pass | reset => simp [State.quiet, hh] at hq

section Events

variable {rest : List HostEvent}

theorem fetch_pass (hh : s.host = .pass :: rest) : fetch s = fetchRun { s with host := rest } := by
  rw [fetch, hh]

theorem fetch_reset (hh : s.host = .reset :: rest) : fetch s = .reset { s with host := rest } := by
  rw [fetch, hh]

theorem fetch_command {c : HostCmd} (hr : s.running = false) (hh : s.host = .start c :: rest) :
    fetch s = .run c.toInstr { s with host := rest } := by
  simp [fetch, hh, hr, selectOp, decode]

end Events

/-- Settles O2: no event of the host reaches the fetch but the one it consumes. -/
theorem idleBlockWaits : Obligations.IdleBlockWaits := by
  refine fun s => ⟨step_of_not_running, fun rest hr hh => ?waits, fun rest hr hh hq => ?runs⟩
  case waits =>
    have hidle : ({ s with host := rest } : State).running = false := hr
    rw [step, fetch_pass hh, fetchRun_of_not_running hidle]
  case runs =>
    have hrun : ({ s with host := rest } : State).running = true := hr
    rw [step, step, fetch_pass hh, fetch_of_quiet hq hrun]

/-- Settles O41: the reset is fetched before any operation of the run; every register `hardwareReset` leaves is that of
the reset state. -/
theorem hardwareResetAbandonsARun : Obligations.HardwareResetAbandonsARun := by
  intro s rest hh
  rw [step, fetch_reset hh]
  rfl

end Sys2Proof.Machine
end

section
/-! The host's side: starting an operation (42_host_operations.md rules R170 to R174, R178), what it reads (10_state.md
rule R35), the reset state (R41), and a bounded implementation (70_reset_and_hazards.md rule R244). -/

namespace Sys2Proof.Machine

/-- Settles O39: each command's start state, field by field, is the reset state with that command's own values. -/
theorem hostOperationsComplete : Obligations.HostOperationsComplete := fun _ hr =>
  ⟨fun src => exec_toInstr (.unpack src) hr, fun codes => exec_toInstr (.decode codes) hr,
    fun src => exec_toInstr (.decompress src) hr, fun src sink => exec_toInstr (.extract src sink) hr⟩

theorem beginRun_of_running (start : State → State) {s : State} (hr : s.running = true) :
    beginRun start s = .refused .startDuringRun :=
  if_pos hr

/-- Settles O40: all four commands go through `beginRun`. -/
theorem startDuringRunIsRefused : Obligations.StartDuringRunIsRefused := by
  intro s c hr
  cases c with
  | unpack src => exact beginRun_of_running (startOf (.unpack src)) hr
  | decode codes => exact beginRun_of_running (startOf (.decode codes)) hr
  | decompress src => exact beginRun_of_running (startOf (.decompress src)) hr
  | extract src sink => exact beginRun_of_running (startOf (.extract src sink)) hr

/-- Settles O42: the values are those of the definition; the counter says which keys are valid. -/
theorem resetLeavesTheStatedValues : Obligations.ResetLeavesTheStatedValues :=
  ⟨rfl, rfl, rfl, rfl, rfl, rfl, rfl, rfl, rfl, rfl, rfl, rfl, rfl, rfl, rfl, rfl, rfl, rfl,
    fun k => validKey_iff k State.reset, fun _ => rfl⟩

/-! ### What the host reads -/

/-- Outside DONE the length reads 0 (R35). -/
theorem readOutlen_of_not_done {s : State} (hp : s.phase ≠ .done) : readOutlen s = 0 :=
  if_neg hp

/-- Settles O43: the phase decides what is read, the operation which result. -/
theorem hostReadsOnlyOutcomes : Obligations.HostReadsOnlyOutcomes := by
  refine fun s => ⟨fun hr => ?running, fun hp => ?done, fun hp => ?failed, fun hp => ?idle⟩
  case running =>
    have herr : readError s = none := if_pos hr
    rcases (running_iff s).1 hr with hp | hp
    · exact ⟨by rw [outcome, hp], readOutlen_of_not_done (by simp [hp]), herr⟩
    · exact ⟨by rw [outcome, hp], readOutlen_of_not_done (by simp [hp]), herr⟩
  case done =>
    have hout : outcome s = some (.ok (resultOf s)) := by rw [outcome, hp]
    rw [hout]
    refine ⟨if_pos hp, fun ho => ?_, fun ho => ?_, fun ho => ?_⟩
    · rw [resultOf, ho]
    · rw [resultOf_eq_text ho]
    · rw [resultOf, ho]
  case failed =>
    have hr : s.running = false := by simp [State.running, hp]
    exact ⟨by rw [outcome, hp], readOutlen_of_not_done (by simp [hp]), by simp [readError, hr]⟩
  case idle => exact ⟨by rw [outcome, hp], readOutlen_of_not_done (by simp [hp])⟩

/-! ### A bounded implementation -/

theorem within_unbounded (s : State) : s.within Config.unbounded = true := by
  have h : ∀ o : Option Entry, o.all (fun _ => true) = true := fun o => by cases o <;> rfl
  simp [State.within, withinBound, h]

theorem stepBounded_of_next {b : Config.Bounds} {s t : State} (h : step s = .next t) :
    stepBounded b s = if t.within b = true then .next t else .refused .capacityExceeded := by
  rw [stepBounded, h]

/-- A step that does not answer is left as it is. -/
theorem stepBounded_of_stop {b : Config.Bounds} {s : State} (h : ∀ t, step s ≠ .next t) : stepBounded b s = step s := by
  cases hst : step s with
  | next t => exact absurd hst (h t)
  | fault f => rw [stepBounded, hst]
  | refused r => rw [stepBounded, hst]

/-- Settles O58: the bounds are looked at after the step has answered, and only then. -/
theorem boundedBlockOnlyRefuses : Obligations.BoundedBlockOnlyRefuses := by
  refine fun b s => ⟨fun t => ⟨fun h => ?answered, fun ⟨ht, hb⟩ => ?answers⟩, fun t ht hb => ?refuses, ?unbounded⟩
  case answers => rw [stepBounded_of_next ht, if_pos hb]
  case refuses => rw [stepBounded_of_next ht, if_neg (by simp [hb])]
  case answered =>
    by_cases hst : ∃ t', step s = .next t'
    · obtain ⟨t', ht'⟩ := hst
      rw [stepBounded_of_next ht'] at h
      split at h
      · cases h
        exact ⟨ht', by assumption⟩
      · cases h
    · have hstop := stepBounded_of_stop (b := b) (not_exists.1 hst)
      exact absurd ⟨t, hstop.symm.trans h⟩ hst
  case unbounded =>
    by_cases hst : ∃ t', step s = .next t'
    · obtain ⟨t', ht'⟩ := hst
      rw [stepBounded_of_next ht', if_pos (within_unbounded t'), ht']
    · exact stepBounded_of_stop (not_exists.1 hst)

end Sys2Proof.Machine
end

section
/-! What the operations do beside the statements already settled: the whole next state of the ones that end a run or
raise an error, and where the inserting ones stop. -/

namespace Sys2Proof.Machine

/-! ### The unpacker -/

theorem cqAppend_cqAppend (c1 c2 : Code) (s : State) :
    cqAppend c2 (cqAppend c1 s) = { s with cq := s.cq ++ [c1, c2] } := by
  simp [cqAppend]

/-- Settles O16: the two appends of a group as one, the rest as each meaning is defined. -/
theorem unpackerOperationsComplete : Obligations.UnpackerOperationsComplete := fun s =>
  ⟨fun c1 c2 => congrArg Host.Outcome.next (cqAppend_cqAppend c1 c2 s), fun _ _ => rfl, fun _ => rfl,
    exec_unpk0_of_unpack, exec_unpk0_of_other⟩

/-! ### The decoder's errors and its end -/

theorem decode_starting_dempty_iff (count : Nat) : decode (.starting count) .nothing = .ok .dempty ↔ count = 0 := by
  cases count with
  | zero => exact iff_of_true rfl rfl
  | succ n => exact ⟨nofun, nofun⟩

/-- Settles O18: the start is told by the length alone, and the meaning is `raiseError` alone. -/
theorem emptySequenceRaises : Obligations.EmptySequenceRaises :=
  ⟨decode_starting_dempty_iff, fun _ => rfl⟩

theorem codeClass_dfirstbad_iff {pos dictSize : Nat} {c c' : Code} :
    CodeClass pos dictSize c (.dfirstbad c') ↔ pos = 0 ∧ 256 ≤ c.toNat ∧ c' = c :=
  ⟨fun | .firstBad hp hc => ⟨hp, hc, rfl⟩, fun ⟨hp, hc, rfl⟩ => .firstBad hp hc⟩

/-- Settles O21: the class of the code, and `raiseError` alone. -/
theorem badFirstCodeRaises : Obligations.BadFirstCodeRaises :=
  ⟨fun _ _ _ _ => decode_code_iff.trans codeClass_dfirstbad_iff, fun _ _ => rfl⟩

/-- Settles O28: `exec_dbad` with `raiseError` written out. -/
theorem unknownCodeChangesOnlyTheStatus : Obligations.UnknownCodeChangesOnlyTheStatus := fun s code =>
  exec_dbad code s

theorem sinkWrite_of_some {s : State} {k : SinkId} (hk : s.sinkHeld = some k) :
    sinkWrite s = { s with sinkLog := s.sinkLog ++ [(k, s.out)] } := by
  rw [sinkWrite, hk]

theorem sinkWrite_of_none {s : State} (hk : s.sinkHeld = none) : sinkWrite s = s := by
  rw [sinkWrite, hk]

/-- Settles O31: the write to the sink, where one is held, stands before the end of the run. -/
theorem endOfCodesWritesTheSinkOnce : Obligations.EndOfCodesWritesTheSinkOnce := by
  refine fun s => ⟨fun k hk => ?held, fun hk => ?notHeld, fun t ho ht => ?extract⟩
  case held =>
    rw [exec_dend, sinkWrite_of_some hk]
    rfl
  case notHeld =>
    rw [exec_dend, sinkWrite_of_none hk]
    rfl
  case extract =>
    rw [exec_dend, Host.Outcome.next.injEq] at ht
    rw [← ht, outcome_finishRun, resultOf, sinkWrite_op, ho]

/-! ### The dictionary -/

/-- Settles O35: the three branches of `DictRead` above the base alphabet. -/
theorem dictReadIsValidKeysOnly : Obligations.DictReadIsValidKeysOnly := by
  refine fun s k hk => ⟨fun e => dictRead_ram hk, fun hv he => ?unwritten, fun hv => ?invalid⟩
  case unwritten => simp [dictRead, validKey, Nat.not_lt.2 hk, hv, he]
  case invalid => simp [dictRead, validKey, Nat.not_lt.2 hk, Nat.not_lt.2 hv]

/-- T1 outside the RAM stops the step (R59, R61). -/
theorem completeStep_outside (e : Entry) {s : State} (hd : s.dictSize < 256 ∨ 4096 ≤ s.dictSize) :
    completeStep e s = .error (.dictWriteOutside s.dictSize) := by
  have hk : ¬(256 ≤ s.dictSize ∧ s.dictSize < 4096) := by omega
  simp [completeStep, tailInsert, dictWrite, hk, bind, Except.bind]

/-- The tail steps read `prev` through `readPrev` alone (log entry 21). -/
theorem completeStep_readPrev (e : Entry) (s : State) :
    completeStep e s = completeStep e { s with prev := some (readPrev s) } := by
  by_cases hd : 256 ≤ s.dictSize ∧ s.dictSize ≤ 4095
  · rw [completeStep_eq_ok e hd, completeStep_eq_ok e (s := { s with prev := some (readPrev s) }) hd]
    rfl
  · have hd' : s.dictSize < 256 ∨ 4096 ≤ s.dictSize := by omega
    rw [completeStep_outside e hd', completeStep_outside e (s := { s with prev := some (readPrev s) }) hd']

theorem exec_dlit_eq (sym : Sym) (s : State) : exec (.dlit sym) s = answer (completeStep (Entry.single sym) s) := by
  simp [exec, execDlit, bind, Except.bind]

theorem exec_dref_of_read {c : Code} {e : Entry} {s : State} (he : dictRead c.toNat s = .ok e) :
    exec (.dref c) s = answer (completeStep e s) := by
  simp [exec, execDref, he, bind, Except.bind]

theorem exec_dref_of_fault {c : Code} {f : Fault} {s : State} (hf : dictRead c.toNat s = .error f) :
    exec (.dref c) s = .fault f := by
  simp [exec, execDref, hf, bind, Except.bind, answer]

theorem exec_dnew_eq (c : Code) (s : State) :
    exec (.dnew c) s = answer (completeStep ((readPrev s).snoc (readPrev s).first) s) := rfl

/-- Settles O26: all three end in `completeStep`, which stops at T1 alone and takes `prev` as it reads. -/
theorem insertingStepsStopOnlyAtTheDictionary : Obligations.InsertingStepsStopOnlyAtTheDictionary := by
  refine fun s => ⟨fun hlow hhigh => ?inside, fun c f => exec_dref_of_fault, fun hd => ?outside, fun _ => ?unwritten⟩
  case inside =>
    have answers : ∀ e, answer (completeStep e s) = .next (afterStep (readPrev s) e s) := fun e =>
      congrArg answer (completeStep_eq_ok e ⟨hlow, hhigh⟩)
    exact ⟨fun sym => ⟨_, (exec_dlit_eq sym s).trans (answers _)⟩, fun c => ⟨_, (exec_dnew_eq c s).trans (answers _)⟩,
      fun c e he => ⟨_, (exec_dref_of_read he).trans (answers e)⟩⟩
  case outside =>
    have faults : ∀ e, answer (completeStep e s) = .fault (.dictWriteOutside s.dictSize) := fun e =>
      congrArg answer (completeStep_outside e hd)
    exact ⟨fun sym => (exec_dlit_eq sym s).trans (faults _), fun c => (exec_dnew_eq c s).trans (faults _),
      fun c e he => (exec_dref_of_read he).trans (faults e)⟩
  case unwritten =>
    refine ⟨readPrev s, fun sym => ?_, fun c => ?_, fun c => ?_⟩
    · rw [exec_dlit_eq, exec_dlit_eq, completeStep_readPrev]
    · have hread : dictRead c.toNat { s with prev := some (readPrev s) } = dictRead c.toNat s := rfl
      cases hr : dictRead c.toNat s with
      | ok e => rw [exec_dref_of_read hr, exec_dref_of_read (hread.trans hr), completeStep_readPrev]
      | error f => rw [exec_dref_of_fault hr, exec_dref_of_fault (hread.trans hr)]
    · rw [exec_dnew_eq, exec_dnew_eq, completeStep_readPrev]
      rfl

/-- Settles O25: T1 writes `prev ++ first(cur)`, and the new code's `cur` begins as `prev` does. -/
theorem newCodeEntryIsItsString : Obligations.NewCodeEntryIsItsString := by
  intro s t c hc h
  rw [exec_dnew_eq, answer_eq_next] at h
  obtain ⟨-, rfl⟩ := completeStep_cases h
  refine ⟨_, rfl, ?_⟩
  rw [ramLookup_afterStep, if_pos hc, Entry.first_snoc]

end Sys2Proof.Machine
end

section
/-! Steps of a run, whichever their operation (10_state.md rules R23, R31, R32, R59): what each loop leaves as it was,
which way its cursors move, and where its phase goes. -/

namespace Sys2Proof.Machine

variable {s t : State}

/-- A quiet step of a run is a step of its loop. -/
theorem runStep_of_step (hq : s.quiet = true) (hr : s.running = true) (hst : step s = .next t) :
    (s.phase = .unpack ∧ UnpackStep s t) ∨ (s.phase = .decode ∧ DecodeStep s t) := by
  rcases quietStep_cases hq hst with ⟨hr', -⟩ | ⟨_, _, hr', -⟩ | h
  · exact absurd (hr.symm.trans hr') (by decide)
  · exact absurd (hr.symm.trans hr') (by decide)
  · exact h

/-- A quiet step of the decode loop is one of those of R130 to R145. -/
theorem decodeStep_of_step (hq : s.quiet = true) (hp : s.phase = .decode) (hst : step s = .next t) :
    DecodeStep s t := by
  rcases runStep_of_step hq ((running_iff s).2 (.inr hp)) hst with ⟨hp', -⟩ | ⟨-, hd⟩
  · exact absurd (hp.symm.trans hp') (by decide)
  · exact hd

/-! ### The frame of the decode loop -/

/-- Every field a decode step may write; what is not listed is as it was. -/
theorem DecodeStep.frame (h : DecodeStep s t) :
    t = { s with
      ci := t.ci, code := t.code, dictRam := t.dictRam, dictSize := t.dictSize, prev := t.prev, cur := t.cur
      out := t.out, phase := t.phase, err := t.err, errinfo := t.errinfo, outlen := t.outlen, nreset := t.nreset
      decStarted := t.decStarted, srcHeld := t.srcHeld, sinkHeld := t.sinkHeld, sinkLog := t.sinkLog } := by
  cases h with
  | empty | init | first | firstBad | insert | bad => rfl
  | finish =>
    rw [sinkWrite_eq]
    rfl

/-- A decode step consumes one code or none (R130). -/
theorem DecodeStep.ci_bounds (h : DecodeStep s t) : s.ci ≤ t.ci ∧ t.ci ≤ s.ci + 1 := by
  cases h with
  | empty | init => exact ⟨le_refl s.ci, Nat.le_succ s.ci⟩
  | first | firstBad | insert | bad => exact ⟨Nat.le_succ s.ci, le_refl (s.ci + 1)⟩
  | finish =>
    rw [sinkWrite_eq]
    exact ⟨le_refl s.ci, Nat.le_succ s.ci⟩

/-- Settles O32: the frame, and the bounds of the cursor. -/
theorem decoderTouchesNoInput : Obligations.DecoderTouchesNoInput := by
  intro s t hq hp hst
  have hd : DecodeStep s t := decodeStep_of_step hq hp hst
  rw [hd.frame]
  exact ⟨rfl, rfl, rfl, rfl, rfl, rfl, rfl, rfl, rfl, rfl, hd.ci_bounds⟩

/-! ### Growth -/

theorem UnpackStep.cq_append (h : UnpackStep s t) : ∃ more, t.cq = s.cq ++ more := by
  cases h with
  | group | tail => exact ⟨_, rfl⟩
  | dangling | finish | handOver => exact ⟨[], (List.append_nil _).symm⟩

/-- An unpack step consumes the chunk it read (R52). -/
theorem UnpackStep.rp_eq (h : UnpackStep s t) : t.rp = s.rp + (nextChunk s).length := by
  cases h with
  | group | tail | dangling | finish | handOver => rfl

theorem DecodeStep.out_append (h : DecodeStep s t) : ∃ more, t.out = s.out ++ more := by
  cases h with
  | first | insert => exact ⟨_, rfl⟩
  | empty | init | firstBad | bad => exact ⟨[], (List.append_nil _).symm⟩
  | finish => exact ⟨[], (sinkWrite_out s).trans (List.append_nil _).symm⟩

/-- Settles O50: each loop's growth, and the other loop's registers by the frame. -/
theorem runsOnlyAppend : Obligations.RunsOnlyAppend := by
  intro s t hq hr hst
  rcases runStep_of_step hq hr hst with ⟨-, hu⟩ | ⟨-, hd⟩
  · have hrp := hu.rp_eq
    have hlen := nextChunk_length s
    have hci : t.ci = s.ci := by rw [hu.frame]
    have hout : t.out = s.out := by rw [hu.frame]
    exact ⟨hu.cq_append, ⟨[], hout.trans (List.append_nil _).symm⟩, by omega, by omega, by omega, by omega⟩
  · have hrp : t.rp = s.rp := by rw [hd.frame]
    have hcq : t.cq = s.cq := by rw [hd.frame]
    exact ⟨⟨[], hcq.trans (List.append_nil _).symm⟩, hd.out_append, by omega, by omega, hd.ci_bounds⟩

/-! ### The dictionary RAM -/

theorem UnpackStep.dictRam_eq (h : UnpackStep s t) : t.dictRam = s.dictRam := by
  rw [h.frame]

/-- A command that answers has left its start state: `exec_toInstr` read the other way. -/
theorem eq_startOf_of_command {c : HostCmd} (h : exec c.toInstr s = .next t) : t = startOf c s := by
  have hr : s.running = false := (exec_command_cases h).1
  exact (Host.Outcome.next.inj ((exec_toInstr c hr).symm.trans h)).symm

theorem dictRam_of_command {c : HostCmd} (h : exec c.toInstr s = .next t) : t.dictRam = s.dictRam := by
  rw [eq_startOf_of_command h, startOf_frame]
  rfl

/-- Only the tail step T1 writes the RAM, inside it (R140). -/
theorem DecodeStep.memory_wf (h : DecodeStep s t) (hm : Memory.wf s.dictRam = true) : Memory.wf t.dictRam = true := by
  cases h with
  | empty | init | first | firstBad | bad => exact hm
  | insert c e _ _ _ hd => exact Memory.wf_ramInsert _ ⟨hd.1, Nat.lt_succ_of_le hd.2⟩ hm
  | finish =>
    rw [sinkWrite_eq]
    exact hm

/-- Settles O37: T1 keeps the canonical form, and nothing else writes the RAM. -/
theorem stepKeepsMemoryCanonical : Obligations.StepKeepsMemoryCanonical := by
  intro s t hm hst
  exact step_preserves (P := fun s => Memory.wf s.dictRam = true) (fun _ _ hm => hm) (fun _ hm => hm)
    (fun _ _ _ hm he => dictRam_of_command he ▸ hm) (fun _ _ hm _ hu => hu.dictRam_eq ▸ hm)
    (fun _ _ hm _ hd => hd.memory_wf hm) hm hst

/-! ### The phases -/

theorem running_of_command {c : HostCmd} (h : exec c.toInstr s = .next t) : t.running = true := by
  rw [eq_startOf_of_command h]
  cases c with
  | unpack | decode | decompress | extract => rfl

/-- Where an unpack step leaves the phase (R111 to R114). -/
theorem UnpackStep.phase_cases (h : UnpackStep s t) :
    s.phase = t.phase ∨ (t.phase = .decode ∧ t.chn = 0 ∧ s.op ≠ some .unpack)
    ∨ (t.phase = .done ∧ t.chn = 0 ∧ s.op = some .unpack) ∨ (t.phase = .failed ∧ t.chn = 1) := by
  cases h with
  | group | tail => exact .inl rfl
  | dangling _ hc => exact .inr (.inr (.inr ⟨rfl, congrArg List.length hc⟩))
  | finish hc ho => exact .inr (.inr (.inl ⟨rfl, congrArg List.length hc, ho⟩))
  | handOver hc ho => exact .inr (.inl ⟨rfl, congrArg List.length hc, ho⟩)

/-- Where a decode step leaves the phase (R131, R134, R139, R145). -/
theorem DecodeStep.phase_cases (h : DecodeStep s t) :
    s.phase = t.phase ∨ (t.phase = .done ∧ s.ci = s.cq.length ∧ t.ci = s.ci)
    ∨ (t.phase = .failed ∧ (t.errinfo.cause = .emptySequence ∨ t.errinfo.cause = .firstCode
        ∨ t.errinfo.cause = .codeBeyond)) := by
  cases h with
  | init | first | insert => exact .inl rfl
  | empty => exact .inr (.inr ⟨rfl, .inl rfl⟩)
  | firstBad => exact .inr (.inr ⟨rfl, .inr (.inl rfl)⟩)
  | bad => exact .inr (.inr ⟨rfl, .inr (.inr rfl)⟩)
  | finish _ he =>
    rw [sinkWrite_eq]
    exact .inr (.inl ⟨rfl, he, rfl⟩)

/-- Settles O49: a step waits, starts an operation, or is one of the two loops'. -/
theorem phaseChangesAsListed : Obligations.PhaseChangesAsListed := by
  intro s t hq hst
  rcases quietStep_cases hq hst with ⟨-, -, rfl⟩ | ⟨c, rest, hr, hh, he⟩ | ⟨hp, hu⟩ | ⟨hp, hd⟩
  · exact .inl rfl
  · exact .inr (.inl ⟨hr, ⟨c, rest, hh⟩, running_of_command he⟩)
  · rcases hu.phase_cases with h | h | h | h
    · exact .inl h
    · exact .inr (.inr (.inl ⟨hp, h⟩))
    · exact .inr (.inr (.inr (.inl ⟨hp, h⟩)))
    · exact .inr (.inr (.inr (.inr (.inl ⟨hp, h⟩))))
  · rcases hd.phase_cases with h | h | h
    · exact .inl h
    · exact .inr (.inr (.inr (.inr (.inr (.inl ⟨hp, h⟩)))))
    · exact .inr (.inr (.inr (.inr (.inr (.inr ⟨hp, h⟩)))))

end Sys2Proof.Machine
end

section
/-! The invariant of the block (10_state.md sections 2 to 6, 20_memory.md section 6, 42_host_operations.md section 2) is
kept by each update a step is made of, and so by every step. -/

namespace Sys2Proof.Machine

open Sys2Proof.Safety

variable {s t : State}

theorem ne_of_running (hr : s.running = true) : s.phase ≠ .idle ∧ s.phase ≠ .done ∧ s.phase ≠ .failed := by
  rcases (running_iff s).1 hr with hp | hp <;> simp [hp]

/-- During a run no error has been taken (R33, R34). -/
theorem noError_of_running (h : Inv s) (hr : s.running = true) : s.err = .none ∧ s.errinfo.cause = .none := by
  have herr : s.err = .none := Decidable.not_not.1 (mt h.failed.2 (ne_of_running hr).2.2)
  exact ⟨herr, h.info.2 herr⟩

/-- In the unpack loop the decoder's registers are still as the initialisation left them (R119). -/
theorem fresh_of_unpack (h : Inv s) (hp : s.phase = .unpack) :
    s.ci = 0 ∧ s.dictSize = 256 ∧ s.nreset = 0 ∧ s.prev = none ∧ s.cur = none ∧ s.out = [] :=
  h.fresh ((running_iff s).2 (.inl hp)) (h.noUnpackInDecode hp).2

/-! ### The host's events, the reset, the starts -/

theorem inv_host (h : Inv s) (events : List HostEvent) : Inv { s with host := events } :=
  { h with }

/-- No RAM key is valid at 256 (R62). -/
theorem known_of_base (hd : s.dictSize = 256) (k : Nat) (hlow : 256 ≤ k) (hk : k < s.dictSize) :
    (ramLookup k s.dictRam).isSome = true := by
  omega

theorem inv_hardwareReset (h : Inv s) : Inv (hardwareReset s) := by
  constructor
  case memory => exact h.memory
  case known => exact known_of_base rfl
  all_goals simp [State.running]

/-- The three operations on a byte source; only `EXTRACT` is handed a sink (R171, R173, R174). -/
theorem inv_startUnpacking (h : Inv s) {op : HostOp} (src : List Byte) {sink : Option SinkId} (ho : op ≠ .decode)
    (hsink : sink.isSome = true ↔ op = .extract) : Inv { startUnpacking op src s with sinkHeld := sink } := by
  constructor
  case memory => exact h.memory
  case known => exact known_of_base rfl
  all_goals simp [State.running, ho, hsink]

theorem inv_startDecoding (h : Inv s) (codes : List Code) : Inv (startDecoding codes s) := by
  constructor
  case memory => exact h.memory
  case known => exact known_of_base rfl
  all_goals simp

theorem inv_of_command {c : HostCmd} (h : Inv s) (he : exec c.toInstr s = .next t) : Inv t := by
  rw [eq_startOf_of_command he]
  cases c with
  | unpack src | decompress src => exact inv_startUnpacking h src (sink := none) (by decide) (by decide)
  | decode codes => exact inv_startDecoding h codes
  | extract src sink => exact inv_startUnpacking h src (sink := some sink) (by decide) (by simp)

/-! ### The two ends of a run -/

theorem inv_raiseError (h : Inv s) {e : Err} {info : ErrInfo} (he : e ≠ .none) (hinfo : info.cause ≠ .none) :
    Inv (raiseError e info s) := by
  refine { h with
    failed := ?_, info := ?_, hidden := ?_, shown := ?_, srcClaim := ?_, sinkClaim := ?_, operation := ?_
    noUnpackInDecode := ?_, noDecodeInUnpack := ?_, fresh := ?_, started := ?_, unread := ?_, previous := ?_ }
  all_goals simp [he, hinfo]

@[simp] theorem finishRun_running (n : Nat) (s : State) : (finishRun n s).running = false := rfl

theorem inv_finishRun (h : Inv s) (hr : s.running = true) {n : Nat}
    (hn : n = if s.op = some .unpack then s.cq.length else s.out.length) : Inv (finishRun n s) := by
  refine { h with
    failed := ?_, hidden := ?_, shown := ?_, srcClaim := ?_, sinkClaim := ?_, operation := ?_
    noUnpackInDecode := ?_, noDecodeInUnpack := ?_, fresh := ?_, started := ?_, unread := ?_, previous := ?_ }
  all_goals simp [noError_of_running h hr, hn]

/-! ### The unpack loop -/

/-- `SrcRead` stays inside the source (R21, R52). -/
theorem rp_nextChunk_le (h : s.rp ≤ s.input.length) : s.rp + (nextChunk s).length ≤ s.input.length := by
  have hlen : (nextChunk s).length = min 3 (s.input.length - s.rp) := by simp [nextChunk]
  omega

theorem inv_fetchChunk (h : Inv s) : Inv (fetchChunk s) :=
  { h with
    source := rp_nextChunk_le h.source
    chunk := nextChunk_length s }

theorem inv_appendCodes (h : Inv s) (hp : s.phase = .unpack) (more : List Code) :
    Inv { s with cq := s.cq ++ more } :=
  { h with
    sequence := by
      have := h.sequence
      simp only [List.length_append]
      omega
    shown := by simp [hp]
    started := by simp [hp] }

theorem inv_enterDecode (h : Inv s) (hp : s.phase = .unpack) (ho : s.op ≠ some .unpack) : Inv (enterDecode s) := by
  have hr : s.running = true := (running_iff s).2 (.inl hp)
  have hr' : (enterDecode s).running = true := rfl
  obtain ⟨hci, hd, hn, hprev, hcur, hout⟩ := fresh_of_unpack h hp
  exact { h with
    failed := by simp [noError_of_running h hr]
    hidden := by simp [h.hidden, hp]
    shown := by simp
    srcClaim := by simpa [hr, hr'] using h.srcClaim
    sinkClaim := by simpa [hr, hr'] using h.sinkClaim
    operation := fun _ => h.operation hr
    noUnpackInDecode := by simp
    noDecodeInUnpack := fun _ => ho
    fresh := fun _ _ => ⟨hci, hd, hn, hprev, hcur, hout⟩
    started := by simp
    unread := fun _ _ => ⟨hd, hn, hout⟩
    previous := by simp [hci] }

theorem inv_of_unpackStep (h : Inv s) (hp : s.phase = .unpack) (hu : UnpackStep s t) : Inv t := by
  have hf : Inv (fetchChunk s) := inv_fetchChunk h
  cases hu with
  | group | tail => exact inv_appendCodes hf hp _
  | dangling => exact inv_raiseError hf (by decide) (by simp)
  | finish _ ho => exact inv_finishRun hf ((running_iff _).2 (.inl hp)) (if_pos ho).symm
  | handOver _ ho => exact inv_enterDecode hf hp ho

/-! ### The decode loop -/

theorem inv_dinit (h : Inv s) (hp : s.phase = .decode) (hs : s.decStarted = false) (hcq : 0 < s.cq.length) :
    Inv { s with dictSize := 256, decStarted := true } := by
  obtain ⟨hci, -, hn, -, -, hout⟩ := h.fresh ((running_iff s).2 (.inr hp)) hs
  exact { h with
    counter := by simp
    known := known_of_base rfl
    noUnpackInDecode := by simp [hp]
    fresh := by simp
    started := fun _ _ => hcq
    unread := fun _ _ => ⟨rfl, hn, hout⟩
    previous := by simp [hci] }

theorem ci_lt_of_getElem? {c : Code} (hc : s.cq[s.ci]? = some c) : s.ci < s.cq.length :=
  (List.getElem?_eq_some_iff.1 hc).1

/-- Consuming a code, where the decoder runs past its first one or the run has ended. -/
theorem inv_afterCode (h : Inv s) {c : Code} (hc : s.cq[s.ci]? = some c) (hs : s.running = true → s.decStarted = true)
    (hprev : s.phase = .decode → s.prev.isSome = true) : Inv (afterCode c s) :=
  { h with
    sequence := ci_lt_of_getElem? hc
    fresh := fun hr hs' => absurd ((hs hr).symm.trans hs') (by decide)
    unread := fun _ hci => absurd hci (Nat.succ_ne_zero s.ci)
    previous := fun hp _ => hprev hp }

theorem inv_setPrev (h : Inv s) (hs : s.decStarted = true) (e : Entry) : Inv { s with prev := some e } :=
  { h with
    fresh := fun _ hs' => absurd (hs.symm.trans hs') (by decide)
    previous := fun _ _ => rfl }

theorem inv_appendText (h : Inv s) (hp : s.phase = .decode) (hs : s.decStarted = true) (hci : s.ci ≠ 0) (more : Str) :
    Inv { s with out := s.out ++ more } :=
  { h with
    shown := by simp [hp]
    fresh := fun _ hs' => absurd (hs.symm.trans hs') (by decide)
    unread := fun _ h0 => absurd h0 hci }

/-- Where the counter goes, from its range (R27, R146). -/
theorem nextSize_range {d : Nat} (hd : 256 ≤ d ∧ d ≤ 4095) : 256 ≤ nextSize d ∧ nextSize d ≤ 4095 := by
  unfold nextSize
  split <;> omega

/-- A key valid after T2 was valid before, or is the one T1 has written (R62, R141). -/
theorem lt_of_lt_nextSize {k d : Nat} (hk : k < nextSize d) : k < 256 ∨ k = d ∨ k < d := by
  unfold nextSize at hk
  split at hk <;> omega

theorem inv_afterStep (h : Inv s) (hp : s.phase = .decode) (hs : s.decStarted = true) (hci : s.ci ≠ 0) (p e : Entry) :
    Inv (afterStep p e s) :=
  { h with
    memory := Memory.wf_ramInsert _ ⟨h.counter.1, Nat.lt_succ_of_le h.counter.2⟩ h.memory
    counter := nextSize_range h.counter
    known := fun k hlow hk => by
      rw [ramLookup_afterStep]
      split
      · rfl
      · rename_i hne
        rcases lt_of_lt_nextSize hk with hk | hk | hk
        · omega
        · exact absurd hk hne
        · exact h.known k hlow hk
    shown := fun hd => absurd (hp.symm.trans hd) (by decide)
    fresh := fun _ hs' => absurd (hs.symm.trans hs') (by decide)
    unread := fun _ h0 => absurd h0 hci
    previous := fun _ _ => rfl }

theorem inv_logWrites (h : Inv s) (log : List (SinkId × Str)) : Inv { s with sinkLog := log } :=
  { h with }

theorem inv_of_decodeStep (h : Inv s) (hp : s.phase = .decode) (hd : DecodeStep s t) : Inv t := by
  have hr : s.running = true := (running_iff s).2 (.inr hp)
  cases hd with
  | empty => exact inv_raiseError h (by decide) (by simp)
  | init hs hcq => exact inv_dinit h hp hs hcq
  | first c hs hc _ _ =>
    have hcode : Inv (afterCode c { s with prev := some (Entry.single (c.setWidth 8)) }) :=
      inv_afterCode (inv_setPrev h hs _) hc (fun _ => hs) fun _ => rfl
    exact inv_appendText hcode hp hs (Nat.succ_ne_zero s.ci) _
  | firstBad c _ hc _ _ | bad c _ hc _ _ _ =>
    exact inv_afterCode (inv_raiseError h (by decide) (by simp)) hc (by simp) (by simp)
  | insert c e hs hc h0 _ _ =>
    have hcode : Inv (afterCode c s) := inv_afterCode h hc (fun _ => hs) fun _ => h.previous hp h0
    exact inv_afterStep hcode hp hs (Nat.succ_ne_zero s.ci) _ _
  | finish _ _ _ =>
    rw [sinkWrite_eq]
    exact inv_finishRun (inv_logWrites h (sinkWrite s).sinkLog) hr (if_neg (h.noDecodeInUnpack hp)).symm

/-! ### Every step -/

/-- Settles O45: each way a step can go keeps the invariant. -/
theorem stepKeepsInvariant : Obligations.StepKeepsInvariant := fun _ _ =>
  step_preserves (P := Inv) (fun _ events h => inv_host h events) (fun _ => inv_hardwareReset)
    (fun _ _ _ => inv_of_command) (fun _ _ => inv_of_unpackStep) (fun _ _ => inv_of_decodeStep)

theorem inv_reset : Inv State.reset := by
  constructor
  case known => exact known_of_base rfl
  all_goals decide

/-- Settles O44: at reset nothing is valid, no code is processed and no run is in progress. -/
theorem invariantsHoldAtReset : Obligations.InvariantsHoldAtReset :=
  ⟨inv_reset, fun _ => ⟨rfl, rfl⟩, nofun⟩

end Sys2Proof.Machine
end

section
/-! No state that meets the invariant stops (70_reset_and_hazards.md rules R232 and R246, 93_implementation_defined.md
entry U4): each place a run can stand gives an operation, and that operation completes. -/

namespace Sys2Proof.Machine

open Sys2Proof.Safety

variable {s : State}

/-- The operation completes on the state, and does not read `prev` unwritten. -/
def Completes (i : Instr) (s : State) : Prop :=
  (∃ t, exec i s = .next t) ∧ misreads i s = false

theorem completes_of_decodeChunk {bytes : List Byte} {i : Instr} (h : decodeChunk bytes = .ok i) (s : State) :
    Completes i s := by
  match bytes, h with
  | [], h =>
    cases h
    by_cases ho : s.op = some .unpack
    · exact ⟨⟨_, exec_unpk0_of_unpack ho⟩, rfl⟩
    · exact ⟨⟨_, exec_unpk0_of_other ho⟩, rfl⟩
  | [_], h | [_, _], h | [_, _, _], h =>
    cases h
    exact ⟨⟨_, rfl⟩, rfl⟩

/-- A code after the first is decoded with `prev` written (R29), the counter in its range (R27), and, where it is the
key of an entry, that entry written (R60). -/
theorem completes_of_codeClass (h : Inv s) (hp : s.phase = .decode) {c : Code} {i : Instr}
    (hi : CodeClass s.ci s.dictSize c i) : Completes i (afterCode c s) := by
  have written : 0 < s.ci → s.prev.isNone = false := fun h0 => by simp [h.previous hp h0]
  cases hi with
  | first => exact ⟨⟨_, exec_dfirst _ _⟩, rfl⟩
  | firstBad | bad => exact ⟨⟨_, rfl⟩, rfl⟩
  | literal h0 => exact ⟨⟨_, exec_dlit _ h.counter⟩, written h0⟩
  | reference h0 hc hd =>
    obtain ⟨e, he⟩ := Option.isSome_iff_exists.1 (h.known _ hc hd)
    exact ⟨⟨_, exec_dref h.counter hc hd he⟩, written h0⟩
  | new h0 => exact ⟨⟨_, exec_dnew _ h.counter⟩, written h0⟩

theorem completes_of_start (s : State) : Completes (if s.cq.length = 0 then .dempty else .dinit) s := by
  split
  · exact ⟨⟨_, rfl⟩, rfl⟩
  · exact ⟨⟨_, rfl⟩, rfl⟩

theorem completes_of_command (hr : s.running = false) (c : HostCmd) : Completes c.toInstr s := by
  refine ⟨⟨_, exec_toInstr c hr⟩, ?_⟩
  cases c with
  | unpack | decode | decompress | extract => rfl

/-- Wherever a run stands its fetch gives an operation that completes (R110, R130). -/
theorem fetchRun_completes (h : Inv s) (hr : s.running = true) :
    ∃ i s', fetchRun s = .run i s' ∧ Completes i s' := by
  rcases (running_iff s).1 hr with hp | hp
  · obtain ⟨i, hi⟩ := decodeChunk_ok (nextChunk_length s)
    exact ⟨i, _, by rw [fetchRun, hp]; exact fetchUnpack_eq s hi, completes_of_decodeChunk hi _⟩
  · have hf : fetchRun s = fetchDecode s := by rw [fetchRun, hp]
    rw [hf]
    cases hs : s.decStarted with
    | false => exact ⟨_, s, fetchDecode_start hs, completes_of_start s⟩
    | true =>
      cases hc : s.cq[s.ci]? with
      | some c => exact ⟨_, _, fetchDecode_code hs hc, completes_of_codeClass h hp (codeClass_classify _ _ c)⟩
      | none =>
        have hend : s.ci = s.cq.length := le_antisymm h.sequence (List.getElem?_eq_none_iff.1 hc)
        exact ⟨_, s, fetchDecode_end hs hend (h.started hp hs), ⟨_, exec_dend s⟩, rfl⟩

/-- The fetch of a run waits, or gives an operation that completes. -/
theorem fetchRun_sound (h : Inv s) :
    (∃ s', fetchRun s = .wait s') ∨ ∃ i s', fetchRun s = .run i s' ∧ Completes i s' := by
  cases hr : s.running with
  | false => exact .inl ⟨s, fetchRun_of_not_running hr⟩
  | true => exact .inr (fetchRun_completes h hr)

/-- The fetch of a state with the invariant waits, resets, or gives an operation that completes. -/
theorem fetch_sound (h : Inv s) :
    (∃ s', fetch s = .wait s') ∨ (∃ s', fetch s = .reset s') ∨ ∃ i s', fetch s = .run i s' ∧ Completes i s' := by
  cases hh : s.host with
  | nil =>
    rw [fetch_of_host_nil hh]
    exact (fetchRun_sound h).imp_right .inr
  | cons ev rest =>
    cases ev with
    | reset => exact .inr (.inl ⟨_, fetch_reset hh⟩)
    | pass =>
      rw [fetch_pass hh]
      exact (fetchRun_sound (inv_host h rest)).imp_right .inr
    | start c =>
      cases hr : s.running with
      | true =>
        rw [fetch_of_quiet (by simp [State.quiet, hh]) hr]
        exact (fetchRun_sound h).imp_right .inr
      | false => exact .inr (.inr ⟨_, _, fetch_command hr hh, completes_of_command (s := { s with host := rest }) hr c⟩)

/-- Settles O46: what the fetch gives, a step answers. -/
theorem invariantStateNeverStops : Obligations.InvariantStateNeverStops := by
  intro s h
  rcases fetch_sound h with ⟨s', hf⟩ | ⟨s', hf⟩ | ⟨i, s', hf, ⟨t, ht⟩, hm⟩
  · exact ⟨⟨s', by rw [step, hf]⟩, fun i s'' hf' => nomatch hf.symm.trans hf'⟩
  · exact ⟨⟨_, by rw [step, hf]⟩, fun i s'' hf' => nomatch hf.symm.trans hf'⟩
  · refine ⟨⟨t, by rw [step, hf]; exact ht⟩, fun i' s'' hf' => ?_⟩
    obtain ⟨rfl, rfl⟩ := Fetched.run.inj (hf.symm.trans hf')
    exact hm

end Sys2Proof.Machine
end

section
/-! The counter and the lengths (41_decoder.md rule R148): both laws follow from the invariant and from what a step of
the decode loop inserts. -/

namespace Sys2Proof.Machine

open Sys2Proof.Safety

variable {s t : State}

/-- A property of the states with the invariant that every change of one keeps, is kept by every step. -/
theorem step_preserves_of_inv {P : State → Prop} (hhost : ∀ s h, P s → P { s with host := h })
    (hreset : ∀ s, P (hardwareReset s))
    (hstart : ∀ (s t : State) (c : HostCmd), Inv s → exec c.toInstr s = .next t → P t)
    (hunpack : ∀ s t : State, Inv s → P s → s.phase = .unpack → UnpackStep s t → P t)
    (hdecode : ∀ s t : State, Inv s → P s → s.phase = .decode → DecodeStep s t → P t)
    (hi : Inv s) (hs : P s) (hst : step s = .next t) : P t := by
  have both : Inv t ∧ P t := step_preserves (P := fun s => Inv s ∧ P s)
    (fun s h hs => ⟨inv_host hs.1 h, hhost s h hs.2⟩)
    (fun s hs => ⟨inv_hardwareReset hs.1, hreset s⟩)
    (fun s t c hs he => ⟨inv_of_command hs.1 he, hstart s t c hs.1 he⟩)
    (fun s t hs hp hu => ⟨inv_of_unpackStep hs.1 hp hu, hunpack s t hs.1 hs.2 hp hu⟩)
    (fun s t hs hp hd => ⟨inv_of_decodeStep hs.1 hp hd, hdecode s t hs.1 hs.2 hp hd⟩)
    ⟨hi, hs⟩ hst
  exact both.2

/-! ### The counter -/

theorem counterLaw_of_base (hd : s.dictSize = 256) (hci : s.ci = 0) (hn : s.nreset = 0) : CounterLaw s := fun _ => by
  simp [hd, hci, hn]

/-- A command leaves the decoder's registers as the initialisation does (R230). -/
theorem decoder_of_command {c : HostCmd} (h : exec c.toInstr s = .next t) :
    t.dictSize = 256 ∧ t.ci = 0 ∧ t.nreset = 0 ∧ t.prev = none ∧ t.out = [] := by
  rw [eq_startOf_of_command h, startOf_frame]
  exact ⟨rfl, rfl, rfl, rfl, rfl⟩

/-- T2 counts modulo 3840 (R141, R148 (a)). -/
theorem counterLaw_count {d n k : Nat} (hd : d = 256 + k % 3840) (hn : n = k / 3840) :
    nextSize d = 256 + (k + 1) % 3840 ∧ nextResets d n = (k + 1) / 3840 := by
  unfold nextSize nextResets
  split <;> omega

theorem counterLaw_of_decodeStep (h : Inv s) (hl : CounterLaw s) (hp : s.phase = .decode) (hd : DecodeStep s t) :
    CounterLaw t := by
  have hr : s.running = true := (running_iff s).2 (.inr hp)
  have hlaw := hl (ne_of_running hr).2.2
  cases hd with
  | empty | firstBad | bad => exact fun hf => absurd rfl hf
  | init hs =>
    obtain ⟨hci, -, hn, -⟩ := h.fresh hr hs
    exact counterLaw_of_base rfl hci hn
  | first c _ _ h0 =>
    obtain ⟨hd, hn, -⟩ := h.unread hr h0
    intro _
    simp [afterCode, hd, hn, h0]
  | insert c e _ _ h0 =>
    have hcount := counterLaw_count hlaw.1 hlaw.2
    rw [Nat.sub_add_cancel h0] at hcount
    exact fun _ => hcount
  | finish =>
    rw [sinkWrite_eq]
    exact fun _ => hlaw

/-- Settles O47: nothing is counted before the decoder's first code, and T2 counts each later one. -/
theorem stepKeepsCounterLaw : Obligations.StepKeepsCounterLaw := by
  refine fun s t => step_preserves_of_inv (P := CounterLaw) (fun s events hl => hl)
    (fun s => counterLaw_of_base rfl rfl rfl) (fun s t c _ he => ?start) (fun s t hi _ hp hu => ?unpack)
    (fun s t hi hl => counterLaw_of_decodeStep hi hl)
  case start =>
    obtain ⟨hd, hci, hn, -⟩ := decoder_of_command he
    exact counterLaw_of_base hd hci hn
  case unpack =>
    obtain ⟨hci, hd, hn, -⟩ := fresh_of_unpack hi hp
    rw [hu.frame]
    exact counterLaw_of_base hd hci hn

/-! ### The lengths -/

/-- A canonical RAM holds nothing below its first key (R59). -/
theorem ramLookup_below {ram : List DictCell} (hm : Memory.wf ram = true) {k : Nat} (hk : k < 256) :
    ramLookup k ram = none := by
  induction ram with
  | nil => rfl
  | cons cell rest ih =>
    obtain ⟨⟨hlow, -⟩, -, hrest⟩ := (Memory.wf_cons cell.1 cell.2 rest).1 hm
    have hne : cell.1 ≠ k := by omega
    rw [ramLookup, if_neg hne, ih hrest]

/-- No entry is valid with the counter at 256, so no length is in question (R62). -/
theorem entries_of_base {ram : List DictCell} (hm : Memory.wf ram = true) (n k : Nat) (e : Entry) (hk : k < 256)
    (he : ramLookup k ram = some e) : 2 ≤ e.length ∧ e.length ≤ n := by
  rw [ramLookup_below hm hk] at he
  cases he

/-- Before the first code. -/
theorem lengthLaw_of_base (hm : Memory.wf s.dictRam = true) (hd : s.dictSize = 256) (hci : s.ci = 0)
    (hprev : s.prev = none) (hout : s.out = []) : LengthLaw s := by
  refine fun _ => ⟨by simp [hprev], fun k e hk => entries_of_base hm _ k e (hd ▸ hk), by simp [hci], by simp [hout]⟩

/-- What a later code decodes to is at most one longer than the longest string so far (R136 to R138). -/
theorem length_of_decodesTo {p e : Entry} {c : Code} (hc : DecodesTo s p c e) (h0 : 0 < s.ci) (hp : p.length ≤ s.ci)
    (hram : ∀ k e, k < s.dictSize → ramLookup k s.dictRam = some e → 2 ≤ e.length ∧ e.length ≤ s.ci) :
    e.length ≤ s.ci + 1 := by
  cases hc with
  | literal => rw [Entry.length_single]; omega
  | reference _ _ hv he => exact (hram _ _ hv he).2.trans (Nat.le_succ _)
  | new => rw [Entry.length_snoc]; omega

/-- The text grows by `n + 1` symbols at most at code `n + 1` (R148 (d)). -/
theorem triangle_succ {m n a : Nat} (hm : 2 * m ≤ n * (n + 1)) (ha : a ≤ n + 1) :
    2 * (m + a) ≤ (n + 1) * (n + 1 + 1) := by
  have : (n + 1) * (n + 1 + 1) = n * (n + 1) + 2 * (n + 1) := by ring
  omega

theorem lengthLaw_afterStep (h : Inv s) (hl : LengthLaw s) (hp : s.phase = .decode) {c : Code} {e : Entry}
    (h0 : 0 < s.ci) (hc : DecodesTo s (readPrev s) c e) : LengthLaw (afterStep (readPrev s) e (afterCode c s)) := by
  obtain ⟨hprev, hram, hmin, hmax⟩ := hl hp
  have hplen : (readPrev s).length ≤ s.ci := by
    obtain ⟨p, hsome⟩ := Option.isSome_iff_exists.1 (h.previous hp h0)
    rw [readPrev_eq hsome]
    exact hprev p hsome
  have helen : e.length ≤ s.ci + 1 := length_of_decodesTo hc h0 hplen hram
  have hone := e.one_le_length
  refine fun _ => ⟨?_, ?_, ?_, ?_⟩
  · rintro _ ⟨⟩
    exact helen
  · intro k e' hk he'
    rw [ramLookup_afterStep] at he'
    split at he'
    · cases he'
      have := (readPrev s).one_le_length
      rw [Entry.length_snoc]
      exact ⟨by omega, Nat.succ_le_succ hplen⟩
    · rename_i hne
      rcases lt_of_lt_nextSize hk with hk | hk | hk
      · exact entries_of_base h.memory _ k e' hk he'
      · exact absurd hk hne
      · exact (hram k e' hk he').imp_right (Nat.le_succ_of_le)
  · change s.ci + 1 ≤ (s.out ++ e.toStr).length
    rw [List.length_append, Entry.length_toStr]
    omega
  · change 2 * (s.out ++ e.toStr).length ≤ (s.ci + 1) * (s.ci + 1 + 1)
    rw [List.length_append, Entry.length_toStr]
    exact triangle_succ hmax helen

theorem lengthLaw_of_decodeStep (h : Inv s) (hl : LengthLaw s) (hp : s.phase = .decode) (hd : DecodeStep s t) :
    LengthLaw t := by
  have hr : s.running = true := (running_iff s).2 (.inr hp)
  cases hd with
  | empty | firstBad | bad | finish => exact nofun
  | init hs =>
    obtain ⟨hci, -, -, hprev, -, hout⟩ := h.fresh hr hs
    exact lengthLaw_of_base h.memory rfl hci hprev hout
  | first c _ _ h0 =>
    obtain ⟨hd, -, hout⟩ := h.unread hr h0
    refine fun _ => ⟨?_, fun k e hk => entries_of_base h.memory _ k e (hd ▸ hk), ?_, ?_⟩
    · rintro _ ⟨⟩
      exact Nat.le_add_left 1 s.ci
    · simp [afterCode, hout, h0]
    · simp [afterCode, hout, h0]
  | insert c e _ _ h0 _ hc => exact lengthLaw_afterStep h hl hp h0 hc

/-- Settles O48: the bounds start from nothing, and each inserting step moves them by one code. -/
theorem stepKeepsLengthLaw : Obligations.StepKeepsLengthLaw := by
  refine fun s t => step_preserves_of_inv (P := LengthLaw) (fun s events hl => hl) (fun s => nofun)
    (fun s t c hi he => ?start) (fun s t hi _ hp hu => ?unpack) (fun s t hi hl => lengthLaw_of_decodeStep hi hl)
  case start =>
    obtain ⟨hd, hci, -, hprev, hout⟩ := decoder_of_command he
    exact lengthLaw_of_base (dictRam_of_command he ▸ hi.memory) hd hci hprev hout
  case unpack =>
    obtain ⟨hci, hd, -, hprev, -, hout⟩ := fresh_of_unpack hi hp
    rw [hu.frame]
    exact lengthLaw_of_base (hu.dictRam_eq ▸ hi.memory) hd hci hprev hout

end Sys2Proof.Machine
end

section
/-! Runs that end: within how many steps, and in which states (70_reset_and_hazards.md rule R246). -/

namespace Sys2Proof.Machine

/-- Within `n` steps the block, from `s`, is in a state that meets `P`. -/
def EndsWithin (n : Nat) (s : State) (P : State → Prop) : Prop :=
  ∃ k t, k ≤ n ∧ Host.Core.run Sys2Proof.core k s = .next t ∧ P t

namespace EndsWithin

variable {m n : Nat} {s s' : State} {P Q : State → Prop}

theorem now (h : P s) : EndsWithin n s P :=
  ⟨0, s, Nat.zero_le n, rfl, h⟩

theorem step (hst : step s = .next s') (h : EndsWithin n s' P) : EndsWithin (n + 1) s P := by
  obtain ⟨k, t, hk, hrun, ht⟩ := h
  exact ⟨k + 1, t, Nat.succ_le_succ hk, (core_run_step k hst).trans hrun, ht⟩

theorem trans (h : EndsWithin m s P) (hPQ : ∀ t, P t → EndsWithin n t Q) : EndsWithin (m + n) s Q := by
  obtain ⟨k, t, hk, hrun, ht⟩ := h
  obtain ⟨l, u, hl, hrun', hu⟩ := hPQ t ht
  exact ⟨k + l, u, Nat.add_le_add hk hl, (core_run_add l hrun).trans hrun', hu⟩

theorem mono (hmn : m ≤ n) (hPQ : ∀ t, P t → Q t) (h : EndsWithin m s P) : EndsWithin n s Q := by
  obtain ⟨k, t, hk, hrun, ht⟩ := h
  exact ⟨k, t, hk.trans hmn, hrun, hPQ t ht⟩

end EndsWithin

theorem quiet_of_host_nil {s : State} (hh : s.host = []) : s.quiet = true := by
  rw [State.quiet, hh]

/-- The state after the first step of a run: the command, and no event of the host behind it. -/
def launched (c : HostCmd) (s : State) : State :=
  startOf c { s with host := [] }

theorem step_launched {s : State} {c : HostCmd} (hr : s.running = false) (hh : s.host = [.start c]) :
    step s = .next (launched c s) :=
  (step_command hr hh).trans (exec_toInstr (s := { s with host := [] }) c hr)

@[simp] theorem launched_sinkLog (c : HostCmd) (s : State) : (launched c s).sinkLog = s.sinkLog := by
  rw [launched, startOf_frame]
  rfl

/-- The block has given its outcome: no claim is left, and the sinks have received `writes` since `log` (R174, R177). -/
structure Ended (log writes : List (SinkId × Str)) (t : State) : Prop where
  writes : t.sinkLog = log ++ writes
  source : t.srcHeld = false
  sink : t.sinkHeld = none

/-- A run that took an error (R197, R199). -/
structure FailedWith (log : List (SinkId × Str)) (e : Err) (t : State) : Prop extends Ended log [] t where
  phase : t.phase = .failed
  err : t.err = e

theorem failedWith_raiseError (e : Err) (info : ErrInfo) (s : State) :
    FailedWith s.sinkLog e (raiseError e info s) where
  writes := (List.append_nil _).symm
  source := rfl
  sink := rfl
  phase := rfl
  err := rfl

theorem FailedWith.outcome_eq {log : List (SinkId × Str)} {e : Err} {t : State} (h : FailedWith log e t) :
    outcome t = some (.fail e) := by
  rw [outcome, h.phase, h.err]

end Sys2Proof.Machine
end

section
/-! The unpack loop computes the closed form of R115 (40_unpacker.md section 3). -/

namespace Sys2Proof.Machine

variable {u v : State} {rest : List Byte} {codes later : List Code}

/-- The block is in the unpack loop, alone, with `rest` to read. -/
structure Unpacking (u : State) (rest : List Byte) : Prop where
  host : u.host = []
  phase : u.phase = .unpack
  left : u.input.drop u.rp = rest
  inside : u.rp ≤ u.input.length

/-- From `u` the unpack loop has emitted `codes`; the read cursor and the latches have moved, and nothing else has. -/
def Emitted (u : State) (codes : List Code) (v : State) : Prop :=
  v = { u with
    rp := v.rp, chn := v.chn, b0 := v.b0, b1 := v.b1, b2 := v.b2
    cq := u.cq ++ codes }

theorem Emitted.trans {w : State} (h : Emitted u codes v) (h' : Emitted v later w) : Emitted u (codes ++ later) w := by
  unfold Emitted at h h' ⊢
  rw [h', h, ← List.append_assoc]

theorem emitted_pair (c1 c2 : Code) (u : State) : Emitted u [c1, c2] (cqAppend c2 (cqAppend c1 (fetchChunk u))) := by
  rw [cqAppend_cqAppend]
  rfl

theorem emitted_one (c : Code) (u : State) : Emitted u [c] (cqAppend c (fetchChunk u)) := rfl

theorem emitted_nothing (u : State) : Emitted u [] u := by
  unfold Emitted
  rw [List.append_nil]

theorem Unpacking.quiet (h : Unpacking u rest) : u.quiet = true :=
  quiet_of_host_nil h.host

theorem Unpacking.nextChunk_eq (h : Unpacking u rest) : nextChunk u = rest.take 3 :=
  nextChunk_of_drop h.left

/-- The loop goes on behind the chunk it has read. -/
theorem Unpacking.next (h : Unpacking u rest) (he : Emitted u codes v) (hrp : v.rp = u.rp + (nextChunk u).length) :
    Unpacking v (rest.drop 3) := by
  have hinput : v.input = u.input := by rw [he]
  have hhost : v.host = u.host := by rw [he]
  have hphase : v.phase = u.phase := by rw [he]
  refine ⟨hhost.trans h.host, hphase.trans h.phase, ?_, ?_⟩
  · rw [hinput, hrp, ← List.drop_drop, h.left, h.nextChunk_eq]
    rcases Nat.lt_or_ge rest.length 3 with hlen | hlen
    · rw [List.take_of_length_le hlen.le, List.drop_length, List.drop_eq_nil_of_le hlen.le]
    · rw [List.length_take, Nat.min_eq_left hlen]
  · rw [hinput, hrp]
    exact rp_nextChunk_le h.inside

/-- The loop stands at the end of the stream. -/
theorem Unpacking.rp_eq (h : Unpacking u []) : u.rp = u.input.length :=
  le_antisymm h.inside (List.drop_eq_nil_iff.1 h.left)

/-- A stream without a dangling byte: the loop emits the closed form's codes, and stands before `UNPK0`. -/
theorem unpacking_ok (h : Unpacking u rest) (hc : unpackClosed rest = .ok codes) :
    EndsWithin (rest.length / 3 + 1) u fun v => Unpacking v [] ∧ Emitted u codes v := by
  induction rest using unpackClosed.induct generalizing u codes with
  | case1 =>
    cases hc
    exact .now ⟨h, emitted_nothing u⟩
  | case2 => cases hc
  | case3 b0 b1 =>
    cases hc
    have he : Emitted u [assembleTail b0 b1] (cqAppend (assembleTail b0 b1) (fetchChunk u)) := emitted_one _ u
    exact (EndsWithin.now ⟨h.next he rfl, he⟩).step (step_tail h.quiet h.phase h.nextChunk_eq)
  | case4 b0 b1 b2 rest _ _ ih | case5 b0 b1 b2 rest _ _ ih =>
    obtain ⟨later, hlater, rfl⟩ := unpackClosed_group_inv hc
    have he := emitted_pair (assembleFirst b0 b1) (assembleSecond b1 b2) u
    rw [length_group_div]
    exact ((ih (h.next he rfl) hlater).mono le_rfl fun v hv => ⟨hv.1, he.trans hv.2⟩).step
      (step_fullGroup h.quiet h.phase h.nextChunk_eq)

/-- A stream with a dangling byte: the loop fails on it, the whole stream read (R113, R118). -/
theorem unpacking_dangling (h : Unpacking u rest) (hm : rest.length % 3 = 1) :
    EndsWithin (rest.length / 3 + 1) u fun t => FailedWith u.sinkLog .invalidData t ∧ t.rp = u.input.length := by
  induction rest using unpackClosed.induct generalizing u with
  | case1 | case3 => simp at hm
  | case2 b =>
    have hlen : (nextChunk u).length = 1 := congrArg List.length h.nextChunk_eq
    have hleft : u.input.length - u.rp = 1 := by rw [← List.length_drop, h.left, List.length_singleton]
    refine (EndsWithin.now ⟨failedWith_raiseError .invalidData _ (fetchChunk u), ?_⟩).step
      (step_danglingByte h.quiet h.phase h.nextChunk_eq)
    rw [raiseError_rp, fetchChunk_rp, hlen]
    omega
  | case4 b0 b1 b2 rest _ _ ih | case5 b0 b1 b2 rest _ _ ih =>
    have he := emitted_pair (assembleFirst b0 b1) (assembleSecond b1 b2) u
    rw [length_group_div]
    exact (ih (h.next he rfl) (length_group_mod.symm.trans hm)).step
      (step_fullGroup h.quiet h.phase h.nextChunk_eq)

/-- The end of the stream under `UNPACK`, after the loop (R114). -/
theorem unpacking_finish (h : Unpacking u []) (ho : u.op = some .unpack) :
    step u = .next (finishRun u.cq.length (fetchChunk u)) :=
  (step_endOfStream h.quiet h.phase h.nextChunk_eq).trans (exec_unpk0_of_unpack ho)

theorem unpacking_handOver (h : Unpacking u []) (ho : u.op ≠ some .unpack) :
    step u = .next (enterDecode (fetchChunk u)) :=
  (step_endOfStream h.quiet h.phase h.nextChunk_eq).trans (exec_unpk0_of_other ho)

/-! ### Runs on a byte source -/

/-- The byte source of a command; a `DECODE` has none (R171 to R174). -/
def sourceOf : HostCmd → Option (List Byte)
  | .unpack src => some src
  | .decode _ => none
  | .decompress src => some src
  | .extract src _ => some src

variable {s : State} {src : List Byte} {c : HostCmd}

theorem launched_input (hc : sourceOf c = some src) : (launched c s).input = src := by
  cases c with
  | decode => cases hc
  | unpack | decompress | extract =>
    cases hc
    rfl

theorem unpacking_launched (hc : sourceOf c = some src) : Unpacking (launched c s) src := by
  cases c with
  | decode => cases hc
  | unpack | decompress | extract =>
    cases hc
    exact ⟨rfl, rfl, rfl, Nat.zero_le _⟩

/-- A run on a source with a dangling byte fails, whatever the operation (R196). -/
theorem run_dangling (hc : sourceOf c = some src) (hm : src.length % 3 = 1) (hr : s.running = false)
    (hh : s.host = [.start c]) :
    EndsWithin (src.length / 3 + 2) s fun t => FailedWith s.sinkLog .invalidData t ∧ t.rp = src.length := by
  have h := unpacking_dangling (unpacking_launched (s := s) hc) hm
  rw [launched_sinkLog, launched_input hc] at h
  exact h.step (step_launched hr hh)

/-- A run on any other source comes to the end of the stream with the closed form's codes. -/
theorem run_unpacks (hc : sourceOf c = some src) (hcodes : unpackClosed src = .ok codes) (hr : s.running = false)
    (hh : s.host = [.start c]) :
    EndsWithin (src.length / 3 + 2) s fun v => Unpacking v [] ∧ Emitted (launched c s) codes v :=
  (unpacking_ok (unpacking_launched hc) hcodes).step (step_launched hr hh)

/-- `UNPACK` ended with `codes`, the whole stream consumed (R114, R118). -/
structure UnpackedTo (log : List (SinkId × Str)) (src : List Byte) (codes : List Code) (t : State) : Prop
    extends Ended log [] t where
  outcome : outcome t = some (.ok (.codes codes))
  outlen : t.outlen = codes.length
  rp : t.rp = src.length

theorem Emitted.op_eq (h : Emitted u codes v) : v.op = u.op := by
  rw [h]

theorem unpackedTo_finishRun (hv : Unpacking v []) (he : Emitted (launched (.unpack src) s) codes v) :
    UnpackedTo s.sinkLog src codes (finishRun v.cq.length (fetchChunk v)) := by
  have hop : v.op = some .unpack := he.op_eq
  have hcq : v.cq = codes := by rw [he]; rfl
  have hlog : v.sinkLog = s.sinkLog := by rw [he]; rfl
  have hinput : v.input = src := by rw [he]; rfl
  refine ⟨⟨by simp [hlog], rfl, rfl⟩, ?_, by rw [finishRun_outlen, hcq], ?_⟩
  · rw [outcome_finishRun, resultOf, fetchChunk_op, hop, fetchChunk_cq, hcq]
  · rw [finishRun_rp, fetchChunk_rp, hv.nextChunk_eq, hv.rp_eq, hinput]
    rfl

theorem unpackRun_ok (hcodes : unpackClosed src = .ok codes) (hr : s.running = false)
    (hh : s.host = [.start (.unpack src)]) :
    EndsWithin (src.length / 3 + 2 + 1) s (UnpackedTo s.sinkLog src codes) :=
  (run_unpacks rfl hcodes hr hh).trans fun _ ⟨hv, he⟩ =>
    (EndsWithin.now (unpackedTo_finishRun hv he)).step (unpacking_finish hv he.op_eq)

/-- Settles O52: the remainder of the length decides between the two ends of the loop. -/
theorem unpackRunMeetsClosedForm : Obligations.UnpackRunMeetsClosedForm := by
  intro s src hr hh
  by_cases hm : src.length % 3 = 1
  · have hc := unpackClosed_dangling hm
    obtain ⟨n, t, hn, hrun, hfail, hrp⟩ := run_dangling rfl hm hr hh
    refine ⟨n, t, by omega, hrun, hrp, hfail.source, hfail.sink, fun codes h => ?_, fun e h => ?_⟩
    · cases hc.symm.trans h
    · cases hc.symm.trans h
      exact hfail.outcome_eq
  · obtain ⟨codes, hc⟩ := exists_unpackClosed_ok hm
    obtain ⟨n, t, hn, hrun, hok⟩ := unpackRun_ok hc hr hh
    refine ⟨n, t, by omega, hrun, hok.rp, hok.source, hok.sink, fun codes' h => ?_, fun e h => ?_⟩
    · cases hc.symm.trans h
      exact ⟨hok.outcome, hok.outlen⟩
    · cases hc.symm.trans h

end Sys2Proof.Machine
end

section
/-! The decode loop computes the closed form of R151 (41_decoder.md section 6): the block's dictionary and the closed
form's agree on every valid key, and a code takes both to the same string or the same error. -/

namespace Sys2Proof.Machine

variable {u t : State} {c : Code} {cs : List Code} {ram : Nat → Option Entry} {p e : Entry}

/-- The block is in the decode loop past its first code, alone, with `cs` to decode, `p` the previous entry, and every
valid key of its RAM holding what the closed form's `ram` holds. -/
structure Decoding (u : State) (cs : List Code) (ram : Nat → Option Entry) (p : Entry) : Prop where
  host : u.host = []
  phase : u.phase = .decode
  started : u.decStarted = true
  left : u.cq.drop u.ci = cs
  inside : u.ci ≤ u.cq.length
  past : 0 < u.ci
  counter : 256 ≤ u.dictSize ∧ u.dictSize ≤ 4095
  prev : u.prev = some p
  agree : ∀ k, 256 ≤ k → k < u.dictSize → ∃ e, ram k = some e ∧ ramLookup k u.dictRam = some e

theorem Decoding.quiet (h : Decoding u cs ram p) : u.quiet = true :=
  quiet_of_host_nil h.host

theorem getElem?_of_drop {l : List Code} {n : Nat} (h : l.drop n = c :: cs) : l[n]? = some c := by
  rw [← List.head?_drop, h, List.head?_cons]

theorem drop_succ_of_drop {l : List Code} {n : Nat} (h : l.drop n = c :: cs) : l.drop (n + 1) = cs := by
  rw [← List.drop_drop, h]
  rfl

/-- An inserting step leaves the loop at the next code, the dictionaries in agreement (R140 to R143). -/
theorem Decoding.afterStep (h : Decoding u (c :: cs) ram p) (e : Entry) :
    Decoding (afterStep p e (afterCode c u)) cs (ramUpdate ram u.dictSize (p.snoc e.first)) e where
  host := h.host
  phase := h.phase
  started := h.started
  left := drop_succ_of_drop h.left
  inside := ci_lt_of_getElem? (getElem?_of_drop h.left)
  past := Nat.succ_pos u.ci
  counter := nextSize_range h.counter
  prev := rfl
  agree k hlow hk := by
    rw [ramLookup_afterStep]
    unfold ramUpdate
    by_cases hkd : k = u.dictSize
    · exact ⟨_, if_pos hkd, if_pos hkd⟩
    · rw [if_neg hkd]
      have hlt : k < u.dictSize := by
        rcases lt_of_lt_nextSize hk with hk | hk | hk
        · omega
        · exact absurd hk hkd
        · exact hk
      obtain ⟨e', h1, h2⟩ := h.agree k hlow hlt
      exact ⟨e', h1, (if_neg hkd).trans h2⟩

/-- One code, in the block and in the closed form: both complete with the same string, or both take the same error. -/
theorem Decoding.step_cases (h : Decoding u (c :: cs) ram p) :
    (∃ e, currentClosed c u.dictSize ram p = some (.ok e)
      ∧ step u = .next (Machine.afterStep p e (afterCode c u)))
    ∨ (currentClosed c u.dictSize ram p = some (.error .unknownCode)
      ∧ ∃ info, step u = .next (raiseError .unknownCode info (afterCode c u))) := by
  have hstep := step_code h.quiet h.phase h.started (getElem?_of_drop h.left)
  have hread : readPrev (afterCode c u) = p := readPrev_eq h.prev
  have hclass := codeClass_classify u.ci u.dictSize c
  generalize classify u.ci u.dictSize c = i at hclass hstep
  unfold currentClosed
  cases hclass with
  | first h0 | firstBad h0 => exact absurd h0 h.past.ne'
  | literal _ hc =>
    rw [exec_dlit (s := afterCode c u) _ h.counter, hread] at hstep
    exact .inl ⟨_, if_pos hc, hstep⟩
  | reference _ hc hd =>
    obtain ⟨e, hram, he⟩ := h.agree _ hc hd
    rw [exec_dref (s := afterCode c u) h.counter hc hd he, hread] at hstep
    refine .inl ⟨e, ?_, hstep⟩
    rw [if_neg (Nat.not_lt.2 hc), if_pos hd, hram]
    rfl
  | new _ hc hd =>
    rw [exec_dnew (s := afterCode c u) _ h.counter, hread] at hstep
    refine .inl ⟨_, ?_, hstep⟩
    rw [if_neg (Nat.not_lt.2 hc), if_neg hd.not_lt, if_pos hd]
  | bad _ hc hd =>
    refine .inr ⟨?_, _, hstep⟩
    rw [if_neg (Nat.not_lt.2 hc), if_neg hd.not_gt, if_neg hd.ne']

/-- What a run of the decoder writes to the sink it holds: the text once, or nothing (R174, R199). -/
def heldWrites : Option SinkId → Except Err Str → List (SinkId × Str)
  | some sink, .ok text => [(sink, text)]
  | some _, .error _ => []
  | none, _ => []

/-- The decoder ended a run of operation `op`, `held` its sink, with the text (R145). -/
structure DecodedTo (log : List (SinkId × Str)) (op : Option HostOp) (held : Option SinkId) (text : Str)
    (t : State) : Prop extends Ended log (heldWrites held (.ok text)) t where
  phase : t.phase = .done
  op : t.op = op
  out : t.out = text
  outlen : t.outlen = text.length

/-- The decoder's end, by what the closed form gives. -/
def DecoderEnd (log : List (SinkId × Str)) (op : Option HostOp) (held : Option SinkId) (t : State) :
    Except Err Str → Prop
  | .ok text => DecodedTo log op held text t
  | .error e => FailedWith log e t

theorem decodedTo_dend (u : State) :
    DecodedTo u.sinkLog u.op u.sinkHeld u.out (finishRun u.out.length (sinkWrite u)) := by
  cases hk : u.sinkHeld with
  | none =>
    rw [sinkWrite_of_none hk]
    exact ⟨⟨(List.append_nil _).symm, rfl, rfl⟩, rfl, rfl, rfl, rfl⟩
  | some sink =>
    rw [sinkWrite_of_some hk]
    exact ⟨⟨rfl, rfl, rfl⟩, rfl, rfl, rfl, rfl⟩

section Ends

variable {log : List (SinkId × Str)} {op : Option HostOp} {held : Option SinkId} {r : Except Err Str}

theorem DecoderEnd.ended (h : DecoderEnd log op held t r) : Ended log (heldWrites held r) t := by
  cases r with
  | ok text => exact h.toEnded
  | error e =>
    cases held with
    | none | some => exact h.toEnded

/-- `DECODE` and `DECOMPRESS` answer the text (R35). -/
theorem DecoderEnd.outcome_text (h : DecoderEnd log op held t r) (ho : op = some .decode ∨ op = some .decompress) :
    outcome t = some (toOutcome .text r) := by
  cases r with
  | ok text => rw [outcome, h.phase, resultOf_eq_text (h.op ▸ ho), h.out, toOutcome]
  | error e => exact h.outcome_eq

/-- `EXTRACT` answers that it succeeded (R174). -/
theorem DecoderEnd.outcome_success (h : DecoderEnd log op held t r) (ho : op = some .extract) :
    outcome t = some (toOutcome (fun _ => .success) r) := by
  cases r with
  | ok text => rw [outcome, h.phase, resultOf, h.op, ho, toOutcome]
  | error e => exact h.outcome_eq

end Ends

theorem runClosed_ok (hcur : currentClosed c u.dictSize ram p = some (.ok e)) :
    runClosed (c :: cs) u.dictSize ram p u.out
      = runClosed cs (afterStep p e (afterCode c u)).dictSize (ramUpdate ram u.dictSize (p.snoc e.first)) e
        (afterStep p e (afterCode c u)).out := by
  rw [runClosed, hcur, ← nextSize_eq]
  rfl

/-- The decode loop ends, code by code as the closed form does, which is defined all the way (R151). -/
theorem decoding_ends (h : Decoding u cs ram p) :
    ∃ r, runClosed cs u.dictSize ram p u.out = some r
      ∧ EndsWithin (cs.length + 1) u fun t => DecoderEnd u.sinkLog u.op u.sinkHeld t r := by
  induction cs generalizing u ram p with
  | nil =>
    have hend : u.ci = u.cq.length := le_antisymm h.inside (List.drop_eq_nil_iff.1 h.left)
    exact ⟨.ok u.out, rfl, (EndsWithin.now (decodedTo_dend u)).step
      ((step_end h.quiet h.phase h.started hend (hend ▸ h.past)).trans (exec_dend u))⟩
  | cons c cs ih =>
    rcases h.step_cases with ⟨e, hcur, hst⟩ | ⟨hcur, info, hst⟩
    · obtain ⟨r, hr, hends⟩ := ih (h.afterStep e)
      exact ⟨r, (runClosed_ok hcur).trans hr, hends.step hst⟩
    · refine ⟨.error .unknownCode, by rw [runClosed, hcur], ?_⟩
      exact (EndsWithin.now (failedWith_raiseError .unknownCode info (afterCode c u))).step hst

/-! ### From the decoder's start -/

/-- The decoder is about to start on its sequence, alone, with nothing decoded. -/
structure DecoderStart (u : State) : Prop where
  host : u.host = []
  phase : u.phase = .decode
  started : u.decStarted = false
  unread : u.ci = 0
  empty : u.out = []

/-- The state after `DINIT` (R132). -/
def afterInit (u : State) : State :=
  { u with dictSize := 256, decStarted := true }

/-- The state after `DFIRST` on the code `c0`, behind `DINIT` (R133). -/
def afterFirst (c0 : Code) (u : State) : State :=
  { afterCode c0 (afterInit u) with
    prev := some (Entry.single (c0.setWidth 8)), out := u.out ++ [c0.setWidth 8] }

theorem decoding_afterFirst (h : DecoderStart u) (hcq : u.cq = c :: cs) :
    Decoding (afterFirst c u) cs (fun _ => none) (Entry.single (c.setWidth 8)) where
  host := h.host
  phase := h.phase
  started := rfl
  left := by
    change u.cq.drop (u.ci + 1) = cs
    rw [h.unread, hcq, List.drop_succ_cons, List.drop_zero]
  inside := by
    change u.ci + 1 ≤ u.cq.length
    rw [h.unread, hcq]
    exact Nat.succ_le_succ (Nat.zero_le _)
  past := Nat.succ_pos u.ci
  counter := ⟨le_refl 256, Nat.le_of_ble_eq_true rfl⟩
  prev := rfl
  agree k hlow hk := absurd hk (Nat.not_lt.2 hlow)

/-- The two first steps on a sequence that is not empty. -/
theorem decoderStart_steps (h : DecoderStart u) (hcq : u.cq = c :: cs) :
    step u = .next (afterInit u)
    ∧ step (afterInit u) = exec (classify 0 256 c) (afterCode c (afterInit u)) := by
  have hinit := step_start (quiet_of_host_nil h.host) h.phase h.started
  rw [hcq] at hinit
  have hcode : (afterInit u).cq[(afterInit u).ci]? = some c := by
    change u.cq[u.ci]? = some c
    rw [h.unread, hcq, List.getElem?_cons_zero]
  have hfirst := step_code (s := afterInit u) (quiet_of_host_nil h.host) h.phase rfl hcode
  have h0 : (afterInit u).ci = 0 := h.unread
  rw [h0] at hfirst
  exact ⟨hinit.trans (exec_dinit u), hfirst⟩

/-- The decoder ends as the closed form of R151 says, from its start. -/
theorem decoderStart_ends (h : DecoderStart u) :
    ∃ r, decodeClosed u.cq = some r
      ∧ EndsWithin (u.cq.length + 2) u fun t => DecoderEnd u.sinkLog u.op u.sinkHeld t r := by
  cases hcq : u.cq with
  | nil =>
    have hstart := step_start (quiet_of_host_nil h.host) h.phase h.started
    rw [hcq] at hstart
    exact ⟨.error .invalidData, rfl, (EndsWithin.now (failedWith_raiseError .invalidData _ u)).step hstart⟩
  | cons c cs =>
    obtain ⟨hinit, hfirst⟩ := decoderStart_steps h hcq
    rcases Nat.lt_or_ge c.toNat 256 with hc | hc
    · rw [classify_first rfl hc, exec_dfirst] at hfirst
      obtain ⟨r, hr, hends⟩ := decoding_ends (decoding_afterFirst h hcq)
      have hout : (afterFirst c u).out = (Entry.single (c.setWidth 8)).toStr := by
        rw [afterFirst, h.empty]
        rfl
      rw [hout] at hr
      exact ⟨r, (if_neg (Nat.not_le.2 hc)).trans hr, (hends.step hfirst).step hinit⟩
    · rw [classify_firstBad rfl hc] at hfirst
      exact ⟨.error .unknownCode, if_pos hc,
        ((EndsWithin.now (failedWith_raiseError .unknownCode _ (afterCode c (afterInit u)))).step hfirst).step hinit⟩

/-! ### A run of `DECODE` -/

variable {s : State} {codes : List Code}

theorem decoderStart_launched (codes : List Code) (s : State) : DecoderStart (launched (.decode codes) s) :=
  ⟨rfl, rfl, rfl, rfl, rfl⟩

theorem decodeRun_ends (hr : s.running = false) (hh : s.host = [.start (.decode codes)]) :
    ∃ r, decodeClosed codes = some r
      ∧ EndsWithin (codes.length + 3) s fun t => DecoderEnd s.sinkLog (some .decode) none t r := by
  obtain ⟨r, hclosed, hends⟩ := decoderStart_ends (decoderStart_launched codes s)
  exact ⟨r, hclosed, hends.step (step_launched hr hh)⟩

/-- The closed form reads no undefined key (R151): the run from reset shows it. -/
theorem exists_decodeClosed (codes : List Code) : ∃ r, decodeClosed codes = some r := by
  obtain ⟨r, hclosed, -⟩ := decoderStart_ends (decoderStart_launched codes State.reset)
  exact ⟨r, hclosed⟩

/-- Settles O53: the first step, then the decoder from its start. -/
theorem decodeRunMeetsClosedForm : Obligations.DecodeRunMeetsClosedForm := by
  intro s codes hr hh
  obtain ⟨r, hclosed, n, t, hn, hrun, ht⟩ := decodeRun_ends hr hh
  have hout := ht.outcome_text (.inl rfl)
  refine ⟨n, t, r, by omega, hrun, hclosed, ht.ended.source, ht.ended.sink, ?_, ?_⟩
  · rintro text rfl
    exact ⟨hout, ht.outlen⟩
  · rintro e rfl
    exact hout

end Sys2Proof.Machine
end

section
/-! Whole runs of the four operations (42_host_operations.md sections 1 and 2): the unpacker's closed form, then the
decoder's, and what both leave to the sinks. -/

namespace Sys2Proof.Machine

variable {s : State} {c : HostCmd} {src : List Byte} {codes : List Code}

/-- The decoder starts on the codes the unpacker has emitted, with its registers as the initialisation left them. -/
theorem decoderStart_handOver {v : State} (hv : Unpacking v []) (he : Emitted (launched c s) codes v) :
    DecoderStart (enterDecode (fetchChunk v)) where
  host := hv.host
  phase := rfl
  started := rfl
  unread := by
    rw [enterDecode_ci, fetchChunk_ci, he, launched, startOf_frame]
    rfl
  empty := by
    rw [enterDecode_out, fetchChunk_out, he, launched, startOf_frame]
    rfl

theorem launched_cq (hc : sourceOf c = some src) : (launched c s).cq = [] := by
  refine startOf_cq_of_not_decode fun codes hd => ?_
  subst hd
  cases hc

/-- Behind the unpacker the decoder ends as the closed form says on the codes emitted (R173). -/
theorem run_decodes (hc : sourceOf c = some src) (ho : (launched c s).op ≠ some .unpack)
    (hcodes : unpackClosed src = .ok codes) (hr : s.running = false) (hh : s.host = [.start c]) :
    ∃ r, decodeClosed codes = some r ∧ EndsWithin (src.length / 3 + 2 + (codes.length + 3)) s fun t =>
      DecoderEnd s.sinkLog (launched c s).op (launched c s).sinkHeld t r := by
  obtain ⟨r, hclosed⟩ := exists_decodeClosed codes
  refine ⟨r, hclosed, (run_unpacks hc hcodes hr hh).trans fun v ⟨hv, he⟩ => ?_⟩
  have hop : v.op = (launched c s).op := he.op_eq
  have hcq : v.cq = codes := by rw [he, launched_cq hc, List.nil_append]
  have hlog : v.sinkLog = s.sinkLog := by rw [he, launched_sinkLog]
  have hheld : v.sinkHeld = (launched c s).sinkHeld := by rw [he]
  obtain ⟨r', hclosed', hends⟩ := decoderStart_ends (decoderStart_handOver hv he)
  simp only [enterDecode_cq, fetchChunk_cq, enterDecode_sinkLog, fetchChunk_sinkLog, enterDecode_op, fetchChunk_op,
    enterDecode_sinkHeld, fetchChunk_sinkHeld, hop, hcq, hlog, hheld] at hclosed' hends
  obtain rfl : r' = r := Option.some.inj (hclosed'.symm.trans hclosed)
  exact hends.step (unpacking_handOver hv (hop ▸ ho))

/-- `UNPACK` then `DECODE`, whichever the way the unpacker ends (R173). -/
theorem run_decompresses (hc : sourceOf c = some src) (ho : (launched c s).op ≠ some .unpack) (hr : s.running = false)
    (hh : s.host = [.start c]) :
    ∃ r, decompressClosed src = some r
      ∧ EndsWithin (1 + (src.length / 3 + 2) + (2 * (src.length / 3) + 1 + 2)) s fun t =>
        DecoderEnd s.sinkLog (launched c s).op (launched c s).sinkHeld t r := by
  by_cases hm : src.length % 3 = 1
  · exact ⟨.error .invalidData, by rw [decompressClosed, unpackClosed_dangling hm],
      (run_dangling hc hm hr hh).mono (by omega) fun _ ht => ht.1⟩
  · obtain ⟨codes, hcodes⟩ := exists_unpackClosed_ok hm
    obtain ⟨r, hclosed, hends⟩ := run_decodes hc ho hcodes hr hh
    have hlen : codes.length ≤ 2 * (src.length / 3) + 1 := by
      rw [length_unpackClosed hcodes]
      split <;> omega
    exact ⟨r, by rw [decompressClosed, hcodes]; exact hclosed, hends.mono (by omega) fun _ ht => ht⟩

/-- The run of `c` from `s` ends within its bound as the closed forms say. -/
def MeetsClosedForm (c : HostCmd) (s : State) : Prop :=
  ∃ o, closedOutcome c = some o
    ∧ EndsWithin (stepBound c) s fun t => outcome t = some o ∧ Ended s.sinkLog (closedSinkWrites c) t

theorem unpack_meetsClosedForm (hr : s.running = false) (hh : s.host = [.start (.unpack src)]) :
    MeetsClosedForm (.unpack src) s := by
  refine ⟨_, rfl, ?_⟩
  by_cases hm : src.length % 3 = 1
  · rw [unpackClosed_dangling hm]
    exact (run_dangling rfl hm hr hh).mono (by rw [stepBound]; omega) fun t ht => ⟨ht.1.outcome_eq, ht.1.toEnded⟩
  · obtain ⟨codes, hc⟩ := exists_unpackClosed_ok hm
    rw [hc]
    exact (unpackRun_ok hc hr hh).mono (by rw [stepBound]; omega) fun t ht => ⟨ht.outcome, ht.toEnded⟩

theorem decode_meetsClosedForm (hr : s.running = false) (hh : s.host = [.start (.decode codes)]) :
    MeetsClosedForm (.decode codes) s := by
  obtain ⟨r, hclosed, hends⟩ := decodeRun_ends hr hh
  refine ⟨toOutcome .text r, by rw [closedOutcome, hclosed]; rfl, ?_⟩
  exact hends.mono (by rw [stepBound]; omega) fun t ht => ⟨ht.outcome_text (.inl rfl), ht.ended⟩

theorem decompress_meetsClosedForm (hr : s.running = false) (hh : s.host = [.start (.decompress src)]) :
    MeetsClosedForm (.decompress src) s := by
  obtain ⟨r, hclosed, hends⟩ := run_decompresses (c := .decompress src) rfl nofun hr hh
  refine ⟨toOutcome .text r, by rw [closedOutcome, hclosed]; rfl, ?_⟩
  exact hends.mono le_rfl fun t ht => ⟨ht.outcome_text (.inr rfl), ht.ended⟩

/-- The sink an `EXTRACT` holds receives what the closed form says (R174, R199). -/
theorem closedSinkWrites_extract {sink : SinkId} {r : Except Err Str} (hr : decompressClosed src = some r) :
    closedSinkWrites (.extract src sink) = heldWrites (some sink) r := by
  rw [closedSinkWrites, hr]
  cases r with
  | ok | error => rfl

theorem extract_meetsClosedForm {sink : SinkId} (hr : s.running = false) (hh : s.host = [.start (.extract src sink)]) :
    MeetsClosedForm (.extract src sink) s := by
  obtain ⟨r, hclosed, hends⟩ := run_decompresses (c := .extract src sink) rfl nofun hr hh
  refine ⟨toOutcome (fun _ => .success) r, by rw [closedOutcome, hclosed]; rfl, ?_⟩
  rw [closedSinkWrites_extract hclosed]
  exact hends.mono le_rfl fun t ht => ⟨ht.outcome_success rfl, ht.ended⟩

theorem meetsClosedForm (c : HostCmd) (hr : s.running = false) (hh : s.host = [.start c]) : MeetsClosedForm c s := by
  cases c with
  | unpack => exact unpack_meetsClosedForm hr hh
  | decode => exact decode_meetsClosedForm hr hh
  | decompress => exact decompress_meetsClosedForm hr hh
  | extract => exact extract_meetsClosedForm hr hh

/-- Settles O54: operation by operation. -/
theorem everyRunMeetsItsClosedOutcome : Obligations.EveryRunMeetsItsClosedOutcome := by
  intro s c hr hh
  obtain ⟨o, ho, n, t, hn, hrun, hout, hend⟩ := meetsClosedForm c hr hh
  exact ⟨n, t, o, hn, hrun, ho, hout, hend.writes, hend.source, hend.sink⟩

/-- The closed outcome is defined for every command: the run from reset shows it. -/
theorem exists_closedOutcome (c : HostCmd) : ∃ o, closedOutcome c = some o := by
  obtain ⟨o, ho, -⟩ := meetsClosedForm (s := { State.reset with host := [.start c] }) c rfl rfl
  exact ⟨o, ho⟩

/-- Settles O55: the closed forms are the outcome and the writes, and they do not mention the state. -/
theorem runsAreIndependent : Obligations.RunsAreIndependent := by
  intro c
  obtain ⟨o, ho⟩ := exists_closedOutcome c
  refine ⟨o, closedSinkWrites c, fun s hr hh => ?_⟩
  obtain ⟨o', ho', n, t, hn, hrun, hout, hend⟩ := meetsClosedForm c hr hh
  obtain rfl : o = o' := Option.some.inj (ho.symm.trans ho')
  exact ⟨n, t, hn, hrun, hout, hend.writes⟩

/-- Settles O57: the unpacker fails before the decoder starts. -/
theorem danglingByteOutranksBadCodes : Obligations.DanglingByteOutranksBadCodes := by
  intro s c src hc hm hr hh
  have hsource : sourceOf c = some src := by
    rcases hc with rfl | ⟨sink, rfl⟩
    · rfl
    · rfl
  have hbound : src.length / 3 + 2 ≤ stepBound c := by
    rcases hc with rfl | ⟨sink, rfl⟩
    · rw [stepBound]
      omega
    · rw [stepBound]
      omega
  obtain ⟨n, t, hn, hrun, hfail, -⟩ := run_dangling hsource hm hr hh
  exact ⟨n, t, hn.trans hbound, hrun, hfail.outcome_eq, hfail.writes.trans (List.append_nil _)⟩

end Sys2Proof.Machine
end
